-- ==== Sys2Proof/Word.lean ====
section
/-! DEFINITION. The word types of the cyclops RPC decoder (spec/00_scope.md R8, R9). -/

namespace Sys2Proof

/-- A wire byte: 8 bits, bit 0 the least significant (R8, R9). Also `u8`. -/
abbrev Byte := BitVec 8

/-- `u16` (R8, R10). -/
abbrev Word16 := BitVec 16

/-- `u32`, and `f32bits`: 32 bits read as an IEEE-754 binary32 value (R8, R10). -/
abbrev Word32 := BitVec 32

end Sys2Proof
end

