-- ==== Sys2Proof/Config.lean ====
section
/-! DEFINITION. The implementation parameters of spec/00_scope.md R7, the record types they mention (spec/10_state.md
R24, R25), and the free constants that stand for what the spec leaves OPEN (log entries 2 to 6). -/

namespace Sys2Proof

/-- The playback mode of a channel: exactly three values, never on the wire (R25). -/
inductive Mode where
  | loopback
  | oneShot
  | nShot
  deriving DecidableEq, Repr, Inhabited

/-- The Channel State record: the eight fields of R24, in its order. -/
structure ChannelState where
  src : Byte
  mode : Mode
  shot : Byte
  period : Word32
  factor : Word32
  voff : Word16
  son : Word32
  soff : Word32
  deriving DecidableEq, Repr, Inhabited

/-- The five source-owned fields that `PRESET` gives (R7, R144). -/
structure SourceSettings where
  period : Word32
  factor : Word32
  voff : Word16
  son : Word32
  soff : Word32
  deriving DecidableEq, Repr, Inhabited

/-- One listed value of `PRESET`: the settings of a source on a channel. -/
structure PresetEntry where
  channel : Nat
  src : Byte
  settings : SourceSettings
  deriving DecidableEq, Repr, Inhabited

/-- `PRESET` (R7) as plain data: the listed entries, and what every other (channel, source id) has. Every function
from (channel, source id) is such a table, since both ranges are finite (log entry 5). -/
structure PresetTable where
  listed : List PresetEntry
  other : SourceSettings
  deriving DecidableEq, Repr, Inhabited

/-- The eight Multi commands, in the source's order (R76). -/
inductive MultiCmd where
  | changeSourceL
  | changeSourceO
  | changeSourceN
  | changeTimePeriod
  | timeFactor
  | voltageOffset
  | squareOnTime
  | squareOffTime
  deriving DecidableEq, Repr, Inhabited

/-- All eight Multi commands. -/
def MultiCmd.all : List MultiCmd :=
  [.changeSourceL, .changeSourceO, .changeSourceN, .changeTimePeriod, .timeFactor, .voltageOffset, .squareOnTime,
    .squareOffTime]

/-- `MULTI_CODE` (R7, R76): the 5-bit code of each Multi command. -/
structure MultiCodes where
  changeSourceL : BitVec 5
  changeSourceO : BitVec 5
  changeSourceN : BitVec 5
  changeTimePeriod : BitVec 5
  timeFactor : BitVec 5
  voltageOffset : BitVec 5
  squareOnTime : BitVec 5
  squareOffTime : BitVec 5
  deriving DecidableEq, Repr, Inhabited

/-- `ARG_ENDIAN` (R7, R56). -/
inductive Endian where
  | le
  | be
  deriving DecidableEq, Repr, Inhabited

/-- `RESYNC_POLICY` (R7, R110). -/
inductive ResyncPolicy where
  | restart
  | huntSingle
  deriving DecidableEq, Repr, Inhabited

/-- `SWAP_MAP` (R7, R145) as plain data: the 4-bit values that select a pair of channels, with their pair (the first
row of a value counts). A value with no row selects no pair. A channel of a pair is one of at most four (R7). -/
abbrev SwapMap := List (BitVec 4 × Fin 4 × Fin 4)

/-- The implementation parameters of R7. They are constants of a block: no step changes them (R28, log entry 1). -/
structure Params where
  nch : Nat
  multiCode : MultiCodes
  argEndian : Endian
  resync : ResyncPolicy
  swapMap : SwapMap
  defaultState : List ChannelState
  preset : PresetTable
  deriving DecidableEq, Repr, Inhabited

/-- The code `MULTI_CODE` gives a Multi command. -/
def Params.codeOf (p : Params) : MultiCmd → BitVec 5
  | .changeSourceL => p.multiCode.changeSourceL
  | .changeSourceO => p.multiCode.changeSourceO
  | .changeSourceN => p.multiCode.changeSourceN
  | .changeTimePeriod => p.multiCode.changeTimePeriod
  | .timeFactor => p.multiCode.timeFactor
  | .voltageOffset => p.multiCode.voltageOffset
  | .squareOnTime => p.multiCode.squareOnTime
  | .squareOffTime => p.multiCode.squareOffTime

/-- The spec's default `MULTI_CODE`: 0 to 7 in the source's order (R76, log entry 2). -/
def Config.multiCode : MultiCodes :=
  ⟨0, 1, 2, 3, 4, 5, 6, 7⟩

/-- `DEFAULT_STATE` is OPEN (R7, R35): a free constant, no value is assumed (log entry 3). -/
opaque Config.defaultState : Fin 4 → ChannelState

/-- `SWAP_MAP` is OPEN (R7, R145): a free constant, no pair is assumed (log entry 4). -/
opaque Config.swapMap : SwapMap

/-- `PRESET` is OPEN (R7, R144): a free constant, no value is assumed (log entry 5). -/
opaque Config.preset : PresetTable

/-- The Source subsystem's answer before any token has brought one (R30): a free constant (log entry 6). -/
opaque Config.holdConst : Bool

/-- The configuration of the machine behind `State.reset`: the spec's defaults where R7 gives one, the free constants
where it gives none (log entry 2). -/
def Config.device : Params where
  nch := 4
  multiCode := Config.multiCode
  argEndian := .le
  resync := .restart
  swapMap := Config.swapMap
  defaultState := [Config.defaultState 0, Config.defaultState 1, Config.defaultState 2, Config.defaultState 3]
  preset := Config.preset

end Sys2Proof
end

