-- ==== Sys2Proof/Syntax.lean ====
section
/-! DEFINITION. The instruction set: one constructor per row of spec/opcode_table.json (log entry 12). -/

namespace Sys2Proof

/-- A command of the protocol, its operands decoded (spec/30_encoding.md R71 to R79). `v` is the 4-bit channel field
of a Single header, `ch` the 2-bit channel field of a Multi header. -/
inductive Instr where
  /-- START, `1vvvv000` (R141). -/
  | start (v : BitVec 4)
  /-- STOP, `1vvvv001` (R142). -/
  | stop (v : BitVec 4)
  /-- RESET, `1vvvv010` (R143). -/
  | reset (v : BitVec 4)
  /-- SWAP, `1vvvv011` (R145). -/
  | swap (v : BitVec 4)
  /-- INVALID, `1vvvv100` (R147). -/
  | invalid4 (v : BitVec 4)
  /-- INVALID, `1vvvv101` (R147). -/
  | invalid5 (v : BitVec 4)
  /-- INVALID, `1vvvv110` (R147). -/
  | invalid6 (v : BitVec 4)
  /-- IDENT, `1vvvv111` (R146). -/
  | ident (v : BitVec 4)
  /-- CSL, change_source_l (R163). -/
  | csl (ch : BitVec 2) (src : Byte)
  /-- CSO, change_source_o (R164). -/
  | cso (ch : BitVec 2) (src : Byte)
  /-- CSN, change_source_n (R165). -/
  | csn (ch : BitVec 2) (src shot : Byte)
  /-- CTP, change_time_period (R167). -/
  | ctp (ch : BitVec 2) (v : Word32)
  /-- TF, time_factor (R168); `f` is the float's 32 bits. -/
  | tf (ch : BitVec 2) (f : Word32)
  /-- VOFF, voltage_offset (R169). -/
  | voff (ch : BitVec 2) (v : Word16)
  /-- SON, square_on_time (R170). -/
  | son (ch : BitVec 2) (v : Word32)
  /-- SOFF, square_off_time (R171). -/
  | soff (ch : BitVec 2) (v : Word32)
  /-- UNDEFINED_MULTI whose code has bit 4 clear; the low four bits of the code are `code` (R105). Under the default
  `MULTI_CODE` these are the codes 8 to 15, the table's row `0cc01xxx`. -/
  | undefinedLow (ch : BitVec 2) (code : BitVec 4)
  /-- UNDEFINED_MULTI whose code has bit 4 set, the table's row `0cc1xxxx` (R105). -/
  | undefinedHigh (ch : BitVec 2) (code : BitVec 4)
  deriving DecidableEq, Repr

end Sys2Proof
end

