-- ==== Sys2Proof/WellFormed.lean ====
section
/-! DEFINITION. Well-formed parameters (spec/00_scope.md R7) and well-formed instructions (spec/30_encoding.md R76). -/

namespace Sys2Proof

/-- `NCH` is 1 to 4 (R7). -/
def Params.nchOk (p : Params) : Bool := decide (1 ≤ p.nch) && decide (p.nch ≤ 4)

/-- `MULTI_CODE` is injective (R7, R76). -/
def Params.codesOk (p : Params) : Bool := decide (MultiCmd.all.map p.codeOf).Nodup

/-- Both channels of every pair of `SWAP_MAP` are below `NCH` (R145). -/
def Params.swapOk (p : Params) : Bool :=
  p.swapMap.all fun row => decide (row.2.1.val < p.nch) && decide (row.2.2.val < p.nch)

/-- `DEFAULT_STATE` gives one record a channel (R7, R26). -/
def Params.defaultsOk (p : Params) : Bool := p.defaultState.length == p.nch

/-- Parameters an integrator may choose (R7, R233). -/
def Params.wf (p : Params) : Bool := p.nchOk && p.codesOk && p.swapOk && p.defaultsOk

/-- No Multi command has this code: it is not in the image of `MULTI_CODE` (R76). -/
def Params.undefinedCode (p : Params) (code : BitVec 5) : Bool := MultiCmd.all.all fun c => p.codeOf c != code

/-- A well-formed instruction under the parameters `p`. Every operand is in range by its type; an UNDEFINED_MULTI is
well formed exactly when its code is undefined. -/
def Instr.wf (p : Params) : Instr → Bool
  | .start _ | .stop _ | .reset _ | .swap _ | .invalid4 _ | .invalid5 _ | .invalid6 _ | .ident _ => true
  | .csl _ _ | .cso _ _ | .csn _ _ _ | .ctp _ _ | .tf _ _ | .voff _ _ | .son _ _ | .soff _ _ => true
  | .undefinedLow _ code => p.undefinedCode (0#1 ++ code)
  | .undefinedHigh _ code => p.undefinedCode (1#1 ++ code)

end Sys2Proof
end

