-- ==== Sys2Proof/Decode.lean ====
section
/-! DEFINITION. The header decoder (spec/41_header_decoder.md), the argument decoder (spec/30_encoding.md R73 to R80,
spec/43_multi_byte_commands.md R162), the decoder of whole frames, and after it the encoder (R74, R86). -/

namespace Sys2Proof

/-! ### Headers -/

/-- The two packet kinds (R70). -/
inductive Kind where
  | single
  | multi
  deriving DecidableEq, Repr

/-- Bit 7 of the first byte fully determines the kind (R131). -/
def kindOf (b : Byte) : Kind := if b.getLsbD 7 then .single else .multi

/-- The channel field of a Single header, bits 6:3 (R132). -/
def singleChannel (b : Byte) : BitVec 4 := b.extractLsb' 3 4

/-- The command field of a Single header, bits 2:0 (R132). -/
def singleCommand (b : Byte) : BitVec 3 := b.extractLsb' 0 3

/-- The channel field of a Multi header, bits 6:5 (R133). -/
def multiChannel (b : Byte) : BitVec 2 := b.extractLsb' 5 2

/-- The command field of a Multi header, bits 4:0 (R133). -/
def multiCommand (b : Byte) : BitVec 5 := b.extractLsb' 0 5

/-- `encSingle` (R74): kind bit 1, the channel field, the command field. -/
def encSingle (ch4 : BitVec 4) (cmd3 : BitVec 3) : Byte := 1#1 ++ ch4 ++ cmd3

/-- `encMultiHeader` (R74): kind bit 0, the channel field, the command field. -/
def encMultiHeader (ch2 : BitVec 2) (code5 : BitVec 5) : Byte := 0#1 ++ ch2 ++ code5

/-! ### Command tables -/

/-- `MULTI_CODE⁻¹`: the Multi command of a code, if the code is defined (R76). -/
def Params.commandOf (p : Params) (code : BitVec 5) : Option MultiCmd :=
  MultiCmd.all.find? fun c => p.codeOf c == code

/-- `SIZE`, the total frame size of a Multi command, header included (R77). -/
def MultiCmd.size : MultiCmd → Nat
  | .changeSourceL => 2
  | .changeSourceO => 2
  | .changeSourceN => 3
  | .changeTimePeriod => 5
  | .timeFactor => 5
  | .voltageOffset => 3
  | .squareOnTime => 5
  | .squareOffTime => 5

/-- The length of the frame a header begins: 1 for a Single header, `SIZE` for a defined Multi header, and 1 for an
undefined Multi header, to which R85 gives no length and whose only byte is taken and discarded (R105, log entry 12). -/
def frameLength (p : Params) (h : Byte) : Nat :=
  match kindOf h with
  | .single => 1
  | .multi =>
    match p.commandOf (multiCommand h) with
    | some c => c.size
    | none => 1

/-! ### Argument values -/

/-- `u16at`: two bytes in wire order as a 16-bit value (R80). -/
def u16 (e : Endian) (b0 b1 : Byte) : Word16 :=
  match e with
  | .le => b1 ++ b0
  | .be => b0 ++ b1

/-- `u32at`, and `f32at`: four bytes in wire order as a 32-bit value (R80). -/
def u32 (e : Endian) (b0 b1 b2 b3 : Byte) : Word32 :=
  match e with
  | .le => b3 ++ b2 ++ b1 ++ b0
  | .be => b0 ++ b1 ++ b2 ++ b3

/-- The bytes of a 16-bit value in wire order (R86). -/
def bytes16 (e : Endian) (v : Word16) : List Byte :=
  match e with
  | .le => [v.extractLsb' 0 8, v.extractLsb' 8 8]
  | .be => [v.extractLsb' 8 8, v.extractLsb' 0 8]

/-- The bytes of a 32-bit value in wire order (R86). -/
def bytes32 (e : Endian) (v : Word32) : List Byte :=
  match e with
  | .le => [v.extractLsb' 0 8, v.extractLsb' 8 8, v.extractLsb' 16 8, v.extractLsb' 24 8]
  | .be => [v.extractLsb' 24 8, v.extractLsb' 16 8, v.extractLsb' 8 8, v.extractLsb' 0 8]

/-! ### Frames -/

/-- Why a list of bytes does not begin with a whole frame. -/
inductive DecodeError where
  /-- There is no byte at all. -/
  | noByte
  /-- A defined Multi header with fewer bytes than its frame needs: the frame is still in progress (R106). -/
  | unfinished (need : Nat)
  deriving DecidableEq, Repr

/-- The Single command of a header (R75, R140): all eight values of the command field. -/
def decodeSingle (h : Byte) : Instr :=
  let v := singleChannel h
  match (singleCommand h).toNat with
  | 0 => .start v
  | 1 => .stop v
  | 2 => .reset v
  | 3 => .swap v
  | 4 => .invalid4 v
  | 5 => .invalid5 v
  | 6 => .invalid6 v
  | _ => .ident v

/-- The instruction of an undefined Multi header (R105). -/
def decodeUndefined (h : Byte) : Instr :=
  let code := multiCommand h
  if code.getLsbD 4 then .undefinedHigh (multiChannel h) (code.extractLsb' 0 4)
  else .undefinedLow (multiChannel h) (code.extractLsb' 0 4)

/-- The argument decoder (R162): a Multi command of channel `ch` from the bytes after its header, by the schema of
R73, with the bytes it does not consume. -/
def decodeArgs (e : Endian) (c : MultiCmd) (ch : BitVec 2) (args : List Byte) : Except DecodeError (Instr × List Byte) :=
  match c, args with
  | .changeSourceL, a :: rest => .ok (.csl ch a, rest)
  | .changeSourceO, a :: rest => .ok (.cso ch a, rest)
  | .changeSourceN, a :: b :: rest => .ok (.csn ch a b, rest)
  | .changeTimePeriod, b0 :: b1 :: b2 :: b3 :: rest => .ok (.ctp ch (u32 e b0 b1 b2 b3), rest)
  | .timeFactor, b0 :: b1 :: b2 :: b3 :: rest => .ok (.tf ch (u32 e b0 b1 b2 b3), rest)
  | .voltageOffset, b0 :: b1 :: rest => .ok (.voff ch (u16 e b0 b1), rest)
  | .squareOnTime, b0 :: b1 :: b2 :: b3 :: rest => .ok (.son ch (u32 e b0 b1 b2 b3), rest)
  | .squareOffTime, b0 :: b1 :: b2 :: b3 :: rest => .ok (.soff ch (u32 e b0 b1 b2 b3), rest)
  | c, _ => .error (.unfinished c.size)

/-- The instruction at the head of a list of bytes, and the bytes after it. The layout is selected by the kind before
any field is extracted (R134). -/
def decode (p : Params) : List Byte → Except DecodeError (Instr × List Byte)
  | [] => .error .noByte
  | h :: args =>
    match kindOf h with
    | .single => .ok (decodeSingle h, args)
    | .multi =>
      match p.commandOf (multiCommand h) with
      | some c => decodeArgs p.argEndian c (multiChannel h) args
      | none => .ok (decodeUndefined h, args)

/-- The instruction of a frame that is exactly these bytes. -/
def decodeFrame (p : Params) (frame : List Byte) : Option Instr :=
  match decode p frame with
  | .ok (i, []) => some i
  | _ => none

/-! ### The encoder -/

/-- The header byte of a Multi command on channel `ch`. -/
def Params.multiHeader (p : Params) (c : MultiCmd) (ch : BitVec 2) : Byte := encMultiHeader ch (p.codeOf c)

/-- The header byte of an instruction (R74, R75, R76). -/
def header (p : Params) : Instr → Byte
  | .start v => encSingle v 0
  | .stop v => encSingle v 1
  | .reset v => encSingle v 2
  | .swap v => encSingle v 3
  | .invalid4 v => encSingle v 4
  | .invalid5 v => encSingle v 5
  | .invalid6 v => encSingle v 6
  | .ident v => encSingle v 7
  | .csl ch _ => p.multiHeader .changeSourceL ch
  | .cso ch _ => p.multiHeader .changeSourceO ch
  | .csn ch _ _ => p.multiHeader .changeSourceN ch
  | .ctp ch _ => p.multiHeader .changeTimePeriod ch
  | .tf ch _ => p.multiHeader .timeFactor ch
  | .voff ch _ => p.multiHeader .voltageOffset ch
  | .son ch _ => p.multiHeader .squareOnTime ch
  | .soff ch _ => p.multiHeader .squareOffTime ch
  | .undefinedLow ch code => encMultiHeader ch (0#1 ++ code)
  | .undefinedHigh ch code => encMultiHeader ch (1#1 ++ code)

/-- The argument bytes of an instruction, in wire order (R73, R86). -/
def argBytes (e : Endian) : Instr → List Byte
  | .start _ | .stop _ | .reset _ | .swap _ | .invalid4 _ | .invalid5 _ | .invalid6 _ | .ident _ => []
  | .csl _ src => [src]
  | .cso _ src => [src]
  | .csn _ src shot => [src, shot]
  | .ctp _ v => bytes32 e v
  | .tf _ f => bytes32 e f
  | .voff _ v => bytes16 e v
  | .son _ v => bytes32 e v
  | .soff _ v => bytes32 e v
  | .undefinedLow _ _ | .undefinedHigh _ _ => []

/-- The frame of an instruction (R86). -/
def encode (p : Params) (i : Instr) : List Byte := header p i :: argBytes p.argEndian i

/-! ### Words of the opcode table -/

/-- The first five bytes (the longest frame) of a table word of `nbits` bits; the bits above `nbits` are zero. Bit 0
is the least significant bit of the first byte. -/
def tableBytes (nbits w : Nat) : List Byte :=
  let w := w % 2 ^ nbits
  [BitVec.ofNat 8 w, BitVec.ofNat 8 (w / 2 ^ 8), BitVec.ofNat 8 (w / 2 ^ 16), BitVec.ofNat 8 (w / 2 ^ 24),
    BitVec.ofNat 8 (w / 2 ^ 32)]

/-- The instruction the decoder reads from a word of spec/opcode_table.json, under the default parameters, for which
the table is written. -/
def decodeTableWord (nbits w : Nat) : Option Instr :=
  match decode Config.device (tableBytes nbits w) with
  | .ok (i, _) => some i
  | .error _ => none

end Sys2Proof
end

