-- ==== Sys2Proof/Machine/State.lean ====
section
/-! DEFINITION. The machine's state as plain data (spec/10_state.md R20 to R35), its inputs and outputs, its reasons to
stop, and reset (spec/70_reset_and_hazards.md R230). -/

namespace Sys2Proof.Machine

open Sys2Proof

/-- `asm.phase` (R21). -/
inductive Phase where
  | idle
  | collect
  | hunt
  deriving DecidableEq, Repr

/-- The kind of a frame in progress: only a Multi frame is ever in progress across steps (R21). -/
inductive AsmKind where
  | multi
  deriving DecidableEq, Repr

/-- The assembler registers (R21). -/
structure Assembler where
  phase : Phase
  buf : List Byte
  need : Nat
  kind : Option AsmKind
  deriving DecidableEq, Repr

/-- No frame in progress (R22, first bullet). -/
def Assembler.idle : Assembler := ⟨.idle, [], 0, none⟩

/-- Resynchronizing (R22, second bullet). -/
def Assembler.hunt : Assembler := ⟨.hunt, [], 0, none⟩

/-- A Multi frame of `need` bytes of which `buf` has been received (R22, third bullet). -/
def Assembler.collecting (buf : List Byte) (need : Nat) : Assembler := ⟨.collect, buf, need, some .multi⟩

/-- An input token (R30). -/
inductive Token where
  /-- The next byte the transport delivered. -/
  | byte (b : Byte)
  /-- The transport's "abandon current frame" signal. -/
  | abandon
  deriving DecidableEq, Repr

/-- The inputs of one step (R30): the token, and the Source subsystem's answer for that step. -/
structure StepInput where
  tok : Token
  holdConst : Bool
  deriving DecidableEq, Repr

/-- Why a mutation is rejected (spec/60_exceptions.md R200). -/
inductive RejectReason where
  | holdTimeNotConstant
  | factorOutOfDomain
  | offsetOutOfDomain
  deriving DecidableEq, Repr

/-- A diagnostic with the information it records (spec/60_exceptions.md R200). -/
inductive Diag where
  /-- Command code not in either table (R201). -/
  | unknownCommand (header : Byte)
  /-- Partial Multi frame abandoned (R202). -/
  | stalledFrame (header : Byte) (received : Nat)
  /-- Channel value outside the supported set (R203). -/
  | invalidChannel (header : Byte) (channel : Nat)
  /-- A mutation the dispatcher turns away (R204). -/
  | rejectedMutation (header : Byte) (channel : Nat) (reason : RejectReason)
  deriving DecidableEq, Repr

/-- The events of R33. -/
inductive Event where
  | devStart
  | devStop
  | devResetAllSources
  | devIdentity
  | srcSwap (a c : Nat)
  | srcSetMode (ch : Nat) (src : Byte) (mode : Mode) (shot : Option Byte)
  | srcSetTimePeriod (ch : Nat) (v : Word32)
  | srcSetTimeFactor (ch : Nat) (f : Word32)
  | srcSetVoltageOffset (ch : Nat) (v : Word16)
  | srcSetSquareOnTime (ch : Nat) (v : Word32)
  | srcSetSquareOffTime (ch : Nat) (v : Word32)
  | diag (d : Diag)
  deriving DecidableEq, Repr

/-- The framing result of a step (R32). -/
inductive StepResult where
  | incomplete
  | complete (frame : List Byte)
  /-- `Error(UnknownCommand)`, the only error result. -/
  | errorUnknownCommand
  | abandoned
  | noOp
  deriving DecidableEq, Repr

/-- The whole state. `asm` and `cs` are the block's state (R20); `cfg` is its configuration, constant (R28, log entry
1); `input`, `holdConst`, `result` and `event` are its interface (R30, R32, R33, log entries 6, 7, 8). -/
structure State where
  /-- The parameters of spec/00_scope.md R7. -/
  cfg : Params
  /-- The assembler registers (R21). -/
  asm : Assembler
  /-- The Channel State Registry: record `ch` is `CS[ch]`, one for each `ch < NCH` (R26). -/
  cs : List ChannelState
  /-- The tokens offered and not yet taken, oldest first. -/
  input : List StepInput
  /-- The `holdConst` of the step at hand. -/
  holdConst : Bool
  /-- The framing result of the last step. -/
  result : Option StepResult
  /-- The event of the last step. -/
  event : Option Event
  deriving DecidableEq, Repr

/-- Why the machine stops with a fault. The spec's block has no fault state (spec/60_exceptions.md R205). -/
inductive Fault where
  /-- Raised by `step` alone, when the assembler registers break the invariants of R22 so that the frame in progress
  is no frame. Safe: no state reachable from reset raises it, and the spec gives such a state no meaning (log entry
  10). -/
  | malformedAssembler
  deriving DecidableEq, Repr

/-- Why something has no meaning in the model. -/
inductive Refusal where
  /-- Raised by an arm of `exec` that has no meaning yet: no arm of this model does. Safe. -/
  | notModelled (mnemonic : String)
  /-- Raised by the read port `get(ch)` (`getChannel`) for a channel that is not below `NCH` (spec/20_memory.md R52, log entry 13). No
  step raises it. Safe: the spec gives such a read no value. -/
  | readOutsideRegistry (ch : Nat)
  deriving DecidableEq, Repr

/-- A block of configuration `p` right after reset (R35, spec/70_reset_and_hazards.md R230): the assembler idle and
empty, every channel at `DEFAULT_STATE`. Nothing has been offered and nothing reported (log entries 6, 7, 8). -/
def State.boot (p : Params) : State where
  cfg := p
  asm := Assembler.idle
  cs := p.defaultState
  input := []
  holdConst := Config.holdConst
  result := none
  event := none

/-- The machine right after reset, in the model's configuration (log entry 2). -/
def State.reset : State := State.boot Config.device

end Sys2Proof.Machine
end

