-- ==== Sys2Proof/Machine/Ops.lean ====
section
/-! DEFINITION. The named operations on the state: the registry (spec/20_memory.md R50 to R52), the event output and the
diagnostics (spec/60_exceptions.md R200, R209), resynchronization (spec/40_classifier_assembler.md R110) and the host
interface (spec/10_state.md R30). -/

namespace Sys2Proof.Machine

open Sys2Proof

/-! ### Outputs -/

/-- `emit E` (spec/00_scope.md R10). -/
def emit (e : Event) (s : State) : State := { s with event := some e }

/-- `raise D(info)`: the block's one way of taking an error (R200, R209). It reports the diagnostic and changes nothing
else: no state is saved, no vector taken, no mode changed. -/
def raise (d : Diag) (s : State) : State := emit (.diag d) s

/-- `result <- r` (spec/00_scope.md R10). -/
def report (r : StepResult) (s : State) : State := { s with result := some r }

/-- The code of a diagnostic kind, in the source's order (R200). -/
def diagCode : Diag → Nat
  | .unknownCommand _ => 1
  | .stalledFrame _ _ => 2
  | .invalidChannel _ _ => 3
  | .rejectedMutation _ _ _ => 4

/-! ### Recovery -/

/-- The assembler registers after `resync()`, by `RESYNC_POLICY` (R110). -/
def resyncTarget (p : ResyncPolicy) : Assembler :=
  match p with
  | .restart => Assembler.idle
  | .huntSingle => Assembler.hunt

/-- `resync()` (R110): the recovery that plays the part of a return from an error (R210). -/
def resync (s : State) : State := { s with asm := resyncTarget s.cfg.resync }

/-! ### The registry -/

/-- `apply(ch, mutation)`, the only write to one record of the registry: all of the mutation in one step (R51). -/
def apply (ch : Nat) (mutation : ChannelState → ChannelState) (s : State) : State :=
  { s with cs := s.cs.modify ch mutation }

/-- The registry with the records of two channels exchanged (R64, spec/42_single_byte_commands.md R145); a state that
lacks one of the two, which R26 rules out, keeps its registry (log entry 17). -/
def swapRecords (a c : Nat) (cs : List ChannelState) : List ChannelState :=
  match cs[a]?, cs[c]? with
  | some ra, some rc => (cs.set a rc).set c ra
  | _, _ => cs

/-- Exchange the whole records of two channels (R145). -/
def exchange (a c : Nat) (s : State) : State := { s with cs := swapRecords a c s.cs }

/-- A record with its five source-owned fields from `PRESET`; `src`, `mode` and `shot` stay (R143, R144). -/
def withSettings (p : SourceSettings) (r : ChannelState) : ChannelState :=
  { r with period := p.period, factor := p.factor, voff := p.voff, son := p.son, soff := p.soff }

/-- `PRESET(ch, src)`: the first listed entry of that channel and source, else what the others have (R7). -/
def presetOf (t : PresetTable) (ch : Nat) (src : Byte) : SourceSettings :=
  match t.listed.find? fun e => e.channel == ch && e.src == src with
  | some e => e.settings
  | none => t.other

/-- The loop of `RESET` over every channel (R143). -/
def restorePresets (s : State) : State :=
  { s with cs := s.cs.mapIdx fun ch r => withSettings (presetOf s.cfg.preset ch r.src) r }

/-- The read port `get(ch)` (R52): a snapshot of the record, or the refusal of a read outside the registry. -/
def getChannel (ch : Nat) (s : State) : Except Refusal ChannelState :=
  if ch < s.cfg.nch then
    match s.cs[ch]? with
    | some r => .ok r
    | none => .error (.readOutsideRegistry ch)
  else .error (.readOutsideRegistry ch)

/-! ### The host interface -/

/-- The transport offers more tokens, after those already offered (R30, spec/60_exceptions.md R215). -/
def deliver (more : List StepInput) (s : State) : State := { s with input := s.input ++ more }

/-- What the platform presents at one moment, as tokens in order: an abandon signal together with a byte is ordered
first (spec/60_exceptions.md R208, log entry 18). -/
def tokensOf (byte : Option Byte) (abandon : Bool) : List Token :=
  (if abandon then [.abandon] else []) ++ (byte.map Token.byte).toList

/-- The platform presents a byte, the abandon signal, both or neither (R208). -/
def offer (byte : Option Byte) (abandon : Bool) (hold : Bool) (s : State) : State :=
  deliver ((tokensOf byte abandon).map fun t => ⟨t, hold⟩) s

end Sys2Proof.Machine
end

