-- ==== Sys2Proof/Machine/Flags.lean ====
section
/-! DEFINITION. The block has no flags and no condition codes (spec/10_state.md R29). What stands here in their place are
the conditions a dispatch tests (spec/43_multi_byte_commands.md R161, R168, R169). -/

namespace Sys2Proof.Machine

open Sys2Proof

/-- The channel check (R161). -/
def channelOk (p : Params) (ch : BitVec 2) : Bool := decide (ch.toNat < p.nch)

/-- A `time_factor` word in the domain (0, ∞): the words 0x00000001 to 0x7F7FFFFF, read as unsigned (R168, log entry
15). -/
def factorInDomain (f : Word32) : Bool := decide (0x00000001 ≤ f.toNat) && decide (f.toNat ≤ 0x7F7FFFFF)

/-- A `voltage_offset` value in the domain (0, ∞): every value but 0 (R169). -/
def offsetInDomain (v : Word16) : Bool := decide (1 ≤ v.toNat)

end Sys2Proof.Machine
end

