-- ==== Sys2Proof/Machine/Operands.lean ====
section
/-! DEFINITION. How a command reaches what its operands name: the channel pair of a Single header, and the checked
channel of a Multi header (spec/42_single_byte_commands.md R145, spec/43_multi_byte_commands.md R160, R161). -/

namespace Sys2Proof.Machine

open Sys2Proof

/-- `SWAP_MAP(v)` (R145): the pair of the first row of `v`, if it has one. -/
def swapPair (m : SwapMap) (v : BitVec 4) : Option (Fin 4 × Fin 4) := m.lookup v

/-- Run a Multi command on the channel its header addresses, or raise `InvalidChannel` and write nothing (R160, R161,
R172: the channel check comes first). `act` takes the header byte (log entry 11), the channel number and the state. -/
def onChannel (c : MultiCmd) (ch : BitVec 2) (act : Byte → Nat → State → State) (s : State) : State :=
  if channelOk s.cfg ch then act (s.cfg.multiHeader c ch) ch.toNat s
  else raise (.invalidChannel (s.cfg.multiHeader c ch) ch.toNat) s

/-- One accepted mutation of a channel with its one event (R51, R172). -/
def mutateAndEmit (ch : Nat) (mutation : ChannelState → ChannelState) (e : Event) (s : State) : State :=
  emit e (apply ch mutation s)

/-- A mutation that is applied whole if its condition holds, and otherwise turned away whole (R51, R204). -/
def mutateIf (ok : Bool) (header : Byte) (ch : Nat) (reason : RejectReason) (mutation : ChannelState → ChannelState)
    (e : Event) (s : State) : State :=
  if ok then mutateAndEmit ch mutation e s else raise (.rejectedMutation header ch reason) s

end Sys2Proof.Machine
end

