-- ==== Sys2Proof/Machine/Assembler.lean ====
section
/-! DEFINITION. The packet classifier and byte stream assembler (spec/40_classifier_assembler.md R100 to R113): what a
step does with the token it takes, up to the dispatch of a complete frame. -/

namespace Sys2Proof.Machine

open Sys2Proof

/-- What a step comes to before any dispatch. -/
inductive Fetched where
  /-- No frame is complete: this is the next state. -/
  | settled (s : State)
  /-- A frame is complete: this instruction runs in this state. -/
  | run (i : Instr) (s : State)
  /-- The assembler registers break R22 (log entry 10). -/
  | broken

/-- A complete frame: the assembler is idle after it (R103, log entry 14) and the step's result is `Complete(frame)`
(R102, R106). The effect is the instruction's own. -/
def dispatchFrame (frame : List Byte) (s : State) : Fetched :=
  match decodeFrame s.cfg frame with
  | some i => .run i (report (.complete frame) { s with asm := Assembler.idle })
  | none => .broken

/-- A byte in `IDLE` is a header: Single (R102), defined Multi (R104) or undefined Multi (R105). -/
def takeHeader (b : Byte) (s : State) : Fetched :=
  match kindOf b with
  | .single => dispatchFrame [b] s
  | .multi =>
    match s.cfg.commandOf (multiCommand b) with
    | some c => .settled (report .incomplete { s with asm := Assembler.collecting [b] c.size })
    | none => dispatchFrame [b] s

/-- A byte in `COLLECT` is an argument, whatever its value (R106). -/
def takeArgument (b : Byte) (s : State) : Fetched :=
  let buf := s.asm.buf ++ [b]
  if buf.length = s.asm.need then dispatchFrame buf s
  else .settled (report .incomplete { s with asm := { s.asm with buf := buf } })

/-- A byte in `HUNT`: discarded unless bit 7 is set (R108), else a Single header (R109). -/
def takeCandidate (b : Byte) (s : State) : Fetched :=
  match kindOf b with
  | .single => dispatchFrame [b] s
  | .multi => .settled (report .incomplete s)

/-- An `Abandon` token: discards a partial frame (R111), else does nothing (R112). -/
def takeAbandon (s : State) : Fetched :=
  match s.asm.phase with
  | .collect =>
    match s.asm.buf with
    | h :: args =>
      .settled (report .abandoned (resync (raise (.stalledFrame h (h :: args).length) s)))
    | [] => .broken
  | .idle => .settled (report .noOp s)
  | .hunt => .settled (report .noOp s)

/-- A `Byte` token, by phase (R101). -/
def takeByte (b : Byte) (s : State) : Fetched :=
  match s.asm.phase with
  | .idle => takeHeader b s
  | .collect => takeArgument b s
  | .hunt => takeCandidate b s

/-- The state in which a step begins on the token `x`: the token is taken from the queue, its `holdConst` is the step's,
and the outputs of the step before are gone (R29, R30). -/
def beginStep (x : StepInput) (rest : List StepInput) (s : State) : State :=
  { s with input := rest, holdConst := x.holdConst, result := none, event := none }

/-- The token half of the step (R113). With no token offered the block takes no step: nothing of it changes and nothing
is reported (R30, log entry 7). -/
def fetch (s : State) : Fetched :=
  match s.input with
  | [] => .settled { s with result := none, event := none }
  | x :: rest =>
    match x.tok with
    | .byte b => takeByte b (beginStep x rest s)
    | .abandon => takeAbandon (beginStep x rest s)

/-- The assembler registers with all but the last byte of a frame received (log entry 9). -/
def heldFrame (frame : List Byte) : Assembler :=
  if frame.length ≤ 1 then Assembler.idle else Assembler.collecting frame.dropLast frame.length

/-- Place a frame so that the very next step takes its last byte and runs it (log entry 9): the bytes before it are in
the assembler, and it is the next token. -/
def placeFrame (frame : List Byte) (s : State) : State :=
  match frame.getLast? with
  | some b => { s with asm := heldFrame frame, input := ⟨.byte b, s.holdConst⟩ :: s.input }
  | none => s

/-- The frame a table word spells: as many of its bytes as its header asks for (R85). -/
def tableFrame (p : Params) (nbits w : Nat) : List Byte :=
  (tableBytes nbits w).take (frameLength p (BitVec.ofNat 8 (w % 2 ^ nbits)))

end Sys2Proof.Machine
end

