-- ==== Sys2Proof/Machine/Levels.lean ====
section
/-! DEFINITION. The timing and level commands (spec/43_multi_byte_commands.md R167 to R171). -/

namespace Sys2Proof.Machine

open Sys2Proof

/-- CTP (R167): judged by the Source subsystem's answer in the step at hand (R246). -/
def execCtp (ch : BitVec 2) (v : Word32) (s : State) : Host.Outcome State Fault Refusal :=
  .next <| onChannel .changeTimePeriod ch (fun header n =>
    mutateIf s.holdConst header n .holdTimeNotConstant (fun r => { r with period := v }) (.srcSetTimePeriod n v)) s

/-- TF (R168): the bits are stored exactly as received. -/
def execTf (ch : BitVec 2) (f : Word32) (s : State) : Host.Outcome State Fault Refusal :=
  .next <| onChannel .timeFactor ch (fun header n =>
    mutateIf (factorInDomain f) header n .factorOutOfDomain (fun r => { r with factor := f })
      (.srcSetTimeFactor n f)) s

/-- VOFF (R169): stored, not added to the previous offset. -/
def execVoff (ch : BitVec 2) (v : Word16) (s : State) : Host.Outcome State Fault Refusal :=
  .next <| onChannel .voltageOffset ch (fun header n =>
    mutateIf (offsetInDomain v) header n .offsetOutOfDomain (fun r => { r with voff := v })
      (.srcSetVoltageOffset n v)) s

/-- SON (R170). -/
def execSon (ch : BitVec 2) (v : Word32) (s : State) : Host.Outcome State Fault Refusal :=
  .next <| onChannel .squareOnTime ch (fun _ n =>
    mutateAndEmit n (fun r => { r with son := v }) (.srcSetSquareOnTime n v)) s

/-- SOFF (R171). -/
def execSoff (ch : BitVec 2) (v : Word32) (s : State) : Host.Outcome State Fault Refusal :=
  .next <| onChannel .squareOffTime ch (fun _ n =>
    mutateAndEmit n (fun r => { r with soff := v }) (.srcSetSquareOffTime n v)) s

end Sys2Proof.Machine
end

