-- ==== Sys2Proof/Machine/Single.lean ====
section
/-! DEFINITION. The Single-byte commands (spec/42_single_byte_commands.md). -/

namespace Sys2Proof.Machine

open Sys2Proof

/-- START (R141); the channel field is ignored (R148). -/
def execStart (_v : BitVec 4) (s : State) : Host.Outcome State Fault Refusal := .next (emit .devStart s)

/-- STOP (R142); the channel field is ignored (R148), and the block is not gated by it (R149). -/
def execStop (_v : BitVec 4) (s : State) : Host.Outcome State Fault Refusal := .next (emit .devStop s)

/-- RESET (R143, R144); the channel field is ignored (R148). -/
def execReset (_v : BitVec 4) (s : State) : Host.Outcome State Fault Refusal :=
  .next (emit .devResetAllSources (restorePresets s))

/-- SWAP (R145). -/
def execSwap (v : BitVec 4) (s : State) : Host.Outcome State Fault Refusal :=
  .next <|
    match swapPair s.cfg.swapMap v with
    | none => raise (.invalidChannel (encSingle v 3) v.toNat) s
    | some (a, c) => emit (.srcSwap a.val c.val) (exchange a.val c.val s)

/-- INVALID, command 0b100 (R147). -/
def execInvalid4 (v : BitVec 4) (s : State) : Host.Outcome State Fault Refusal :=
  .next (raise (.unknownCommand (encSingle v 4)) s)

/-- INVALID, command 0b101 (R147). -/
def execInvalid5 (v : BitVec 4) (s : State) : Host.Outcome State Fault Refusal :=
  .next (raise (.unknownCommand (encSingle v 5)) s)

/-- INVALID, command 0b110 (R147). -/
def execInvalid6 (v : BitVec 4) (s : State) : Host.Outcome State Fault Refusal :=
  .next (raise (.unknownCommand (encSingle v 6)) s)

/-- IDENT (R146); the channel field is ignored (R148). -/
def execIdent (_v : BitVec 4) (s : State) : Host.Outcome State Fault Refusal := .next (emit .devIdentity s)

end Sys2Proof.Machine
end

