-- ==== Sys2Proof/Machine/Source.lean ====
section
/-! DEFINITION. The source-selection commands (spec/43_multi_byte_commands.md R163 to R166). -/

namespace Sys2Proof.Machine

open Sys2Proof

/-- CSL (R163): `shot` is not written (R166). -/
def execCsl (ch : BitVec 2) (src : Byte) (s : State) : Host.Outcome State Fault Refusal :=
  .next <| onChannel .changeSourceL ch (fun _ n =>
    mutateAndEmit n (fun r => { r with src := src, mode := .loopback }) (.srcSetMode n src .loopback none)) s

/-- CSO (R164): `shot` is not written (R166). -/
def execCso (ch : BitVec 2) (src : Byte) (s : State) : Host.Outcome State Fault Refusal :=
  .next <| onChannel .changeSourceO ch (fun _ n =>
    mutateAndEmit n (fun r => { r with src := src, mode := .oneShot }) (.srcSetMode n src .oneShot none)) s

/-- CSN (R165). -/
def execCsn (ch : BitVec 2) (src shot : Byte) (s : State) : Host.Outcome State Fault Refusal :=
  .next <| onChannel .changeSourceN ch (fun _ n =>
    mutateAndEmit n (fun r => { r with src := src, mode := .nShot, shot := shot })
      (.srcSetMode n src .nShot (some shot))) s

end Sys2Proof.Machine
end

