-- ==== Sys2Proof/Machine/Undefined.lean ====
section
/-! DEFINITION. The undefined Multi headers (spec/40_classifier_assembler.md R105). -/

namespace Sys2Proof.Machine

open Sys2Proof

/-- An undefined Multi header: report it, resynchronize, and give the result `Error(UnknownCommand)` (R105). -/
def discardHeader (h : Byte) (s : State) : State :=
  report .errorUnknownCommand (resync (raise (.unknownCommand h) s))

/-- UNDEFINED_MULTI with code bit 4 clear (R105). -/
def execUndefinedLow (ch : BitVec 2) (code : BitVec 4) (s : State) : Host.Outcome State Fault Refusal :=
  .next (discardHeader (encMultiHeader ch (0#1 ++ code)) s)

/-- UNDEFINED_MULTI with code bit 4 set (R105). -/
def execUndefinedHigh (ch : BitVec 2) (code : BitVec 4) (s : State) : Host.Outcome State Fault Refusal :=
  .next (discardHeader (encMultiHeader ch (1#1 ++ code)) s)

end Sys2Proof.Machine
end

