-- ==== Sys2Proof/Machine/Dispatch.lean ====
section
/-! DEFINITION. The dispatcher: one arm per instruction (spec/42_single_byte_commands.md R140,
spec/43_multi_byte_commands.md R160). -/

namespace Sys2Proof.Machine

open Sys2Proof

def exec (i : Instr) (s : State) : Host.Outcome State Fault Refusal :=
  match i with
  | .start v => Sys2Proof.Machine.execStart v s
  | .stop v => Sys2Proof.Machine.execStop v s
  | .reset v => Sys2Proof.Machine.execReset v s
  | .swap v => Sys2Proof.Machine.execSwap v s
  | .invalid4 v => Sys2Proof.Machine.execInvalid4 v s
  | .invalid5 v => Sys2Proof.Machine.execInvalid5 v s
  | .invalid6 v => Sys2Proof.Machine.execInvalid6 v s
  | .ident v => Sys2Proof.Machine.execIdent v s
  | .csl ch src => Sys2Proof.Machine.execCsl ch src s
  | .cso ch src => Sys2Proof.Machine.execCso ch src s
  | .csn ch src shot => Sys2Proof.Machine.execCsn ch src shot s
  | .ctp ch v => Sys2Proof.Machine.execCtp ch v s
  | .tf ch f => Sys2Proof.Machine.execTf ch f s
  | .voff ch v => Sys2Proof.Machine.execVoff ch v s
  | .son ch v => Sys2Proof.Machine.execSon ch v s
  | .soff ch v => Sys2Proof.Machine.execSoff ch v s
  | .undefinedLow ch code => Sys2Proof.Machine.execUndefinedLow ch code s
  | .undefinedHigh ch code => Sys2Proof.Machine.execUndefinedHigh ch code s

end Sys2Proof.Machine
end

