-- ==== Sys2Proof/Machine/Step.lean ====
section
/-! DEFINITION. One step of the block (spec/40_classifier_assembler.md R100, R113): the assembler takes the next token, and
a frame it completes is dispatched within the same step (spec/20_memory.md R60). -/

namespace Sys2Proof.Machine

open Sys2Proof

def step (s : State) : Host.Outcome State Fault Refusal :=
  match fetch s with
  | .settled t => .next t
  | .run i t => exec i t
  | .broken => .fault .malformedAssembler

/-- The frame of a table word, placed so that the very next step runs it (log entry 9). -/
def State.withFetchWord (s : State) (nbits w : Nat) : State := placeFrame (tableFrame s.cfg nbits w) s

end Sys2Proof.Machine
end

