-- ==== Sys2Proof/Safety.lean ====
section
/-! DEFINITION. What a safe state is (spec/10_state.md R22, R26) and the terms in which statements speak of a run
(spec/20_memory.md R62, R63). -/

namespace Sys2Proof.Machine

open Sys2Proof

/-- The assembler invariants of R22, one clause a bullet; `HUNT` is reachable only under `HuntSingle` (R21). -/
def Assembler.Wf (p : Params) (a : Assembler) : Prop :=
  (a.phase = .idle → a.buf = [] ∧ a.need = 0 ∧ a.kind = none) ∧
  (a.phase = .hunt → a.buf = [] ∧ a.need = 0 ∧ a.kind = none ∧ p.resync = .huntSingle) ∧
  (a.phase = .collect → ∃ h args c, a.buf = h :: args ∧ kindOf h = .multi ∧ p.commandOf (multiCommand h) = some c ∧
    a.need = c.size ∧ a.buf.length < a.need ∧ a.kind = some .multi)

/-- The invariant of the machine: legal parameters (R7), a legal assembler (R22), one record a channel (R26). -/
def Legal (s : State) : Prop := s.cfg.wf = true ∧ s.asm.Wf s.cfg ∧ s.cs.length = s.cfg.nch

/-- Nothing but the registry and the event output differs. -/
def SameButRegistryAndEvent (s t : State) : Prop :=
  t.cfg = s.cfg ∧ t.asm = s.asm ∧ t.input = s.input ∧ t.holdConst = s.holdConst ∧ t.result = s.result

/-- The bytes of a frame as the tokens of as many steps, with the Source's answer `hold` at each. -/
def frameTokens (p : Params) (i : Instr) (hold : Bool) : List StepInput :=
  (encode p i).map fun b => ⟨.byte b, hold⟩

/-- The tokens of frames sent one after the other. -/
def streamTokens (p : Params) (l : List (Instr × Bool)) : List StepInput :=
  l.flatMap fun x => frameTokens p x.1 x.2

/-- The registry after the commands of a list, each run once, in order, with its answer `holdConst`. -/
def registryAfter (l : List (Instr × Bool)) (s : State) : List ChannelState :=
  match l with
  | [] => s.cs
  | (i, hold) :: rest =>
    match exec i { s with holdConst := hold } with
    | .next t => registryAfter rest t
    | _ => s.cs

/-- The events of the commands of a list, each run once, in order. -/
def eventsOf (l : List (Instr × Bool)) (s : State) : List Event :=
  match l with
  | [] => []
  | (i, hold) :: rest =>
    match exec i { s with holdConst := hold } with
    | .next t => t.event.toList ++ eventsOf rest t
    | _ => []

/-- The events a run of `k` steps reports, in order (R33). -/
def eventsDuring (k : Nat) (s : State) : List Event :=
  match k with
  | 0 => []
  | k + 1 =>
    match step s with
    | .next t => t.event.toList ++ eventsDuring k t
    | _ => []

/-- The command is an undefined Multi header. -/
def isUndefined : Instr → Bool
  | .undefinedLow _ _ | .undefinedHigh _ _ => true
  | .start _ | .stop _ | .reset _ | .swap _ | .invalid4 _ | .invalid5 _ | .invalid6 _ | .ident _ => false
  | .csl _ _ | .cso _ _ | .csn _ _ _ | .ctp _ _ | .tf _ _ | .voff _ _ | .son _ _ | .soff _ _ => false

end Sys2Proof.Machine
end

