-- ==== Sys2Proof/Certificates/Slice0/Obligations.lean ====
section
/-! DEFINITION. The statements about the cyclops RPC decoder. Each docstring names the rules of spec/ it formalises. -/

open Sys2Proof Sys2Proof.Machine

/-! ### Headers and frames -/

/-- R74: the header encoders are the formulas of the spec. -/
def Obligations.HeaderEncodersFollowTheFormulas : Prop :=
  (∀ (ch4 : BitVec 4) (cmd3 : BitVec 3),
    encSingle ch4 cmd3 = 0x80#8 ||| (ch4.setWidth 8 <<< 3) ||| cmd3.setWidth 8) ∧
  (∀ (ch2 : BitVec 2) (code5 : BitVec 5),
    encMultiHeader ch2 code5 = (ch2.setWidth 8 <<< 5) ||| code5.setWidth 8)

/-- R131, R132, R133: the kind is bit 7, and the two layouts extract the fields by their own shifts and masks. -/
def Obligations.HeaderFieldsFollowTheFormulas : Prop :=
  (∀ b : Byte, kindOf b = if b.getLsbD 7 then .single else .multi) ∧
  (∀ b : Byte, b.getLsbD 7 = true →
    (singleChannel b).setWidth 8 = (b >>> 3) &&& 0xF#8 ∧ (singleCommand b).setWidth 8 = b &&& 0x7#8) ∧
  (∀ b : Byte, b.getLsbD 7 = false →
    (multiChannel b).setWidth 8 = (b >>> 5) &&& 0x3#8 ∧ (multiCommand b).setWidth 8 = b &&& 0x1F#8) ∧
  kindOf 0x7F = .multi ∧ kindOf 0x80 = .single ∧
  singleChannel 0x9B = 3 ∧ singleCommand 0x9B = 3 ∧ multiChannel 0x66 = 3 ∧ multiCommand 0x66 = 6

/-- The spec's own derivations in R74 and R135: every byte is the header of exactly one pair of fields of its kind, and
re-encoding the fields decoded from it gives it back. -/
def Obligations.HeaderFieldsReencode : Prop :=
  (∀ b : Byte, b.getLsbD 7 = true → encSingle (singleChannel b) (singleCommand b) = b ∧
    ∃! x : BitVec 4 × BitVec 3, encSingle x.1 x.2 = b) ∧
  (∀ b : Byte, b.getLsbD 7 = false → encMultiHeader (multiChannel b) (multiCommand b) = b ∧
    ∃! x : BitVec 2 × BitVec 5, encMultiHeader x.1 x.2 = b)

/-- R80, R81: the value of an argument field is the unsigned number its bytes spell in the configured order. -/
def Obligations.ArgumentFieldsSpellTheirBytes : Prop :=
  (∀ b0 b1 : Byte, (u16 .le b0 b1).toNat = b0.toNat + 256 * b1.toNat ∧
    (u16 .be b0 b1).toNat = 256 * b0.toNat + b1.toNat) ∧
  (∀ b0 b1 b2 b3 : Byte,
    (u32 .le b0 b1 b2 b3).toNat = b0.toNat + 256 * b1.toNat + 65536 * b2.toNat + 16777216 * b3.toNat ∧
    (u32 .be b0 b1 b2 b3).toNat = 16777216 * b0.toNat + 65536 * b1.toNat + 256 * b2.toNat + b3.toNat)

/-- R73, R162: each Multi command takes exactly its argument bytes, from frame byte 1 on, in the order of the schema,
and its decoding never fails once the frame is complete; with a byte missing the frame is unfinished. -/
def Obligations.ArgumentsFollowTheSchema : Prop :=
  ∀ (p : Params), p.codesOk = true → ∀ (ch : BitVec 2) (a b c d : Byte) (rest : List Byte),
    decode p (p.multiHeader .changeSourceL ch :: a :: rest) = .ok (.csl ch a, rest) ∧
    decode p (p.multiHeader .changeSourceO ch :: a :: rest) = .ok (.cso ch a, rest) ∧
    decode p (p.multiHeader .changeSourceN ch :: a :: b :: rest) = .ok (.csn ch a b, rest) ∧
    decode p (p.multiHeader .changeTimePeriod ch :: a :: b :: c :: d :: rest)
      = .ok (.ctp ch (u32 p.argEndian a b c d), rest) ∧
    decode p (p.multiHeader .timeFactor ch :: a :: b :: c :: d :: rest) = .ok (.tf ch (u32 p.argEndian a b c d), rest) ∧
    decode p (p.multiHeader .voltageOffset ch :: a :: b :: rest) = .ok (.voff ch (u16 p.argEndian a b), rest) ∧
    decode p (p.multiHeader .squareOnTime ch :: a :: b :: c :: d :: rest)
      = .ok (.son ch (u32 p.argEndian a b c d), rest) ∧
    decode p (p.multiHeader .squareOffTime ch :: a :: b :: c :: d :: rest)
      = .ok (.soff ch (u32 p.argEndian a b c d), rest) ∧
    ∀ (cmd : MultiCmd) (args : List Byte), args.length + 1 < cmd.size →
      decode p (p.multiHeader cmd ch :: args) = .error (.unfinished cmd.size)

/-- R77: the size table; an undefined code has no size; the sizes of the codes 0 to 7 of the default table. -/
def Obligations.MultiFrameSizes : Prop :=
  (∀ p : Params, p.codesOk = true →
    (p.commandOf (p.codeOf .changeSourceL)).map MultiCmd.size = some 2 ∧
    (p.commandOf (p.codeOf .changeSourceO)).map MultiCmd.size = some 2 ∧
    (p.commandOf (p.codeOf .changeSourceN)).map MultiCmd.size = some 3 ∧
    (p.commandOf (p.codeOf .changeTimePeriod)).map MultiCmd.size = some 5 ∧
    (p.commandOf (p.codeOf .timeFactor)).map MultiCmd.size = some 5 ∧
    (p.commandOf (p.codeOf .voltageOffset)).map MultiCmd.size = some 3 ∧
    (p.commandOf (p.codeOf .squareOnTime)).map MultiCmd.size = some 5 ∧
    (p.commandOf (p.codeOf .squareOffTime)).map MultiCmd.size = some 5) ∧
  (∀ (p : Params) (code : BitVec 5), (∀ c : MultiCmd, p.codeOf c ≠ code) →
    (p.commandOf code).map MultiCmd.size = none) ∧
  [0#5, 1#5, 2#5, 3#5, 4#5, 5#5, 6#5, 7#5].map (fun code => (Config.device.commandOf code).map MultiCmd.size)
    = [some 2, some 2, some 3, some 5, some 5, some 3, some 5, some 5]

/-- R82: a Multi header selects the command whose code its command field is, in every legal table, and a Single header
the one its command field names; the channel field never changes the class. Under the default codes, the spec's own
count: 80 valid Single bytes, 48 invalid ones, 32 valid Multi headers and 96 undefined ones. -/
def Obligations.HeaderClasses : Prop :=
  (∀ (v : BitVec 4),
    decodeSingle (encSingle v 0) = .start v ∧ decodeSingle (encSingle v 1) = .stop v ∧
    decodeSingle (encSingle v 2) = .reset v ∧ decodeSingle (encSingle v 3) = .swap v ∧
    decodeSingle (encSingle v 4) = .invalid4 v ∧ decodeSingle (encSingle v 5) = .invalid5 v ∧
    decodeSingle (encSingle v 6) = .invalid6 v ∧ decodeSingle (encSingle v 7) = .ident v) ∧
  (∀ (p : Params) (ch : BitVec 2) (code : BitVec 5) (c : MultiCmd), p.codesOk = true →
    (p.commandOf (multiCommand (encMultiHeader ch code)) = some c ↔ p.codeOf c = code)) ∧
  ((List.range 256).countP fun n => kindOf (.ofNat 8 n) == .single && decide (n % 8 ∈ [0, 1, 2, 3, 7])) = 80 ∧
  ((List.range 256).countP fun n => kindOf (.ofNat 8 n) == .single && decide (n % 8 ∈ [4, 5, 6])) = 48 ∧
  ((List.range 256).countP fun n => kindOf (.ofNat 8 n) == .multi &&
    (Config.device.commandOf (multiCommand (.ofNat 8 n))).isSome) = 32 ∧
  ((List.range 256).countP fun n => kindOf (.ofNat 8 n) == .multi &&
    (Config.device.commandOf (multiCommand (.ofNat 8 n))).isNone) = 96

/-- R85: the length of the frame of a Single header or of a defined Multi header is told by the header alone. A list of
bytes decodes exactly when it holds that many, the rest is left over, and it is otherwise unfinished, whatever the bytes
after the header are. An undefined Multi header has no length in R85; that it is decoded as one byte is derived from R105,
which discards that one byte, and is the model's choice (log entries 12 and 14). -/
def Obligations.FrameLengthFromTheHeaderAlone : Prop :=
  ∀ (p : Params) (h : Byte) (args : List Byte),
    (frameLength p h ≤ args.length + 1 →
      ∃ i rest, decode p (h :: args) = .ok (i, rest) ∧ rest = args.drop (frameLength p h - 1)) ∧
    (args.length + 1 < frameLength p h → decode p (h :: args) = .error (.unfinished (frameLength p h)))

/-- R135, R173: decoding undoes encoding, for every well-formed instruction, every operand, every legal configuration, and
whatever bytes follow. -/
def Obligations.DecodeUndoesEncode : Prop :=
  ∀ (p : Params) (i : Instr) (rest : List Byte), p.codesOk = true → i.wf p = true →
    decode p (encode p i ++ rest) = .ok (i, rest)

/-- R173: encoding undoes decoding, under every configuration: the bytes of a decoded frame are the encoding of the
instruction it decoded to, which is well formed. It holds for frames the dispatcher rejects too. -/
def Obligations.EncodeUndoesDecode : Prop :=
  ∀ (p : Params) (bytes rest : List Byte) (i : Instr), decode p bytes = .ok (i, rest) →
    encode p i ++ rest = bytes ∧ i.wf p = true

/-- The words of spec/95_test_vectors.md E3 and V-HD, written out, decode to the commands they stand for. -/
def Obligations.WrittenOutWordsDecode : Prop :=
  decodeTableWord 8 0b10000000 = some (.start 0) ∧ decodeTableWord 8 0b10011011 = some (.swap 3) ∧
  decodeTableWord 8 0b11000100 = some (.invalid4 8) ∧ decodeTableWord 8 0b11111111 = some (.ident 15) ∧
  decodeTableWord 16 0x0540 = some (.csl 2 5) ∧ decodeTableWord 24 0x030762 = some (.csn 3 7 3) ∧
  decodeTableWord 40 0x000003E803 = some (.ctp 0 1000) ∧ decodeTableWord 40 0x4020000024 = some (.tf 1 0x40200000) ∧
  decodeTableWord 24 0x123445 = some (.voff 2 0x1234) ∧ decodeTableWord 40 0x000001F466 = some (.son 3 500) ∧
  decodeTableWord 8 0b01111111 = some (.undefinedHigh 3 15) ∧ decodeTableWord 8 0b00001000 = some (.undefinedLow 0 8)

/-! ### Reset and configuration -/

/-- R35: after reset the assembler is idle and empty, and every channel has its `DEFAULT_STATE`, in every configuration
and in the machine's own. -/
def Obligations.ResetValues : Prop :=
  (∀ p : Params, (State.boot p).cfg = p ∧ (State.boot p).asm.phase = .idle ∧ (State.boot p).asm.buf = [] ∧
    (State.boot p).asm.need = 0 ∧ (State.boot p).asm.kind = none ∧
    ∀ ch : Nat, ch < p.nch → (State.boot p).cs[ch]? = p.defaultState[ch]?) ∧
  State.reset.asm.phase = .idle ∧ State.reset.asm.buf = [] ∧ State.reset.asm.need = 0 ∧ State.reset.asm.kind = none ∧
  ∀ ch : Nat, ch < State.reset.cfg.nch → State.reset.cs[ch]? = State.reset.cfg.defaultState[ch]?

/-- The model's choice (log entries 2 and 3): the machine behind `State.reset` has the spec's default for each parameter
R7 gives one, its `DEFAULT_STATE` is a free constant, and no token has been offered and nothing reported (log entries 7
and 8). -/
def Obligations.ResetConfigurationIsTheDefault : Prop :=
  State.reset = State.boot Config.device ∧ Config.device.nch = 4 ∧
  MultiCmd.all.map Config.device.codeOf = [0, 1, 2, 3, 4, 5, 6, 7] ∧ Config.device.argEndian = .le ∧
  Config.device.resync = .restart ∧ (∀ ch : Fin 4, State.reset.cs[ch.val]? = some (Config.defaultState ch)) ∧
  State.reset.input = [] ∧ State.reset.result = none ∧ State.reset.event = none

/-- R28: no step changes a parameter. -/
def Obligations.ConfigurationIsConstant : Prop :=
  ∀ s t : State, step s = .next t → t.cfg = s.cfg

/-- R22, R26, R7: reset meets the invariant, in every legal configuration. -/
def Obligations.ResetMeetsTheInvariant : Prop :=
  (∀ p : Params, p.wf = true → Legal (State.boot p)) ∧ Legal State.reset

/-- R22: every step keeps the invariant: legal parameters, a legal assembler, one record a channel. -/
def Obligations.StepKeepsTheInvariant : Prop :=
  ∀ s t : State, Legal s → step s = .next t → Legal t

/-- R205: from a state that meets the invariant no step stops: each gives a next state, which meets it again. -/
def Obligations.NoStepStops : Prop :=
  ∀ s : State, Legal s → ∃ t, step s = .next t ∧ Legal t

/-! ### The step: classifier and assembler -/

/-- R102, R106, R109, R113: a step that completes a frame runs the command the frame decodes to, in the state with the
token taken, its `holdConst` presented, the outputs of the step before gone, the assembler idle (R103) and the result
`Complete(frame)`. The frame is the byte itself in IDLE, or in HUNT when its bit 7 is set, and the collected bytes with
it in COLLECT. -/
def Obligations.StepRunsTheDecodedInstruction : Prop :=
  ∀ (s : State) (b : Byte) (hold : Bool) (rest : List StepInput) (i : Instr) (frame : List Byte),
    s.input = ⟨.byte b, hold⟩ :: rest → decode s.cfg frame = .ok (i, []) →
    (s.asm.phase = .idle ∧ frame = [b]) ∨ (s.asm.phase = .hunt ∧ b.getLsbD 7 = true ∧ frame = [b]) ∨
      (s.asm.phase = .collect ∧ frame = s.asm.buf ++ [b] ∧ frame.length = s.asm.need) →
    step s = exec i
      { s with
        input := rest
        holdConst := hold
        asm := ⟨.idle, [], 0, none⟩
        result := some (.complete frame)
        event := none }

/-- R102: any byte with bit 7 set completes a one-byte frame in IDLE, whatever bytes follow it: its Single command is
dispatched at once, and the assembler stays IDLE and empty. -/
def Obligations.SingleHeaderCompletesAtOnce : Prop :=
  ∀ (s : State) (b : Byte) (hold : Bool) (rest : List StepInput),
    s.input = ⟨.byte b, hold⟩ :: rest → s.asm = ⟨.idle, [], 0, none⟩ → b.getLsbD 7 = true →
    ∃ t, step s = .next t ∧
      exec (decodeSingle b)
        { s with input := rest, holdConst := hold, result := some (.complete [b]), event := none } = .next t ∧
      t.asm = ⟨.idle, [], 0, none⟩ ∧ t.result = some (.complete [b])

/-- R104: a Multi header with a defined code starts a frame of its size, with no event. -/
def Obligations.DefinedMultiHeaderStartsAFrame : Prop :=
  ∀ (s : State) (b : Byte) (hold : Bool) (rest : List StepInput) (c : MultiCmd),
    s.input = ⟨.byte b, hold⟩ :: rest → s.asm.phase = .idle → b.getLsbD 7 = false →
    s.cfg.commandOf (multiCommand b) = some c →
    step s = .next
      { s with
        input := rest
        holdConst := hold
        asm := ⟨.collect, [b], c.size, some .multi⟩
        result := some .incomplete
        event := none }

/-- R105, R110: a Multi header with an undefined code is reported and discarded, and the assembler resynchronizes by
`RESYNC_POLICY`; nothing is written to the registry. -/
def Obligations.UndefinedMultiHeaderResynchronizes : Prop :=
  ∀ (s : State) (b : Byte) (hold : Bool) (rest : List StepInput),
    s.input = ⟨.byte b, hold⟩ :: rest → s.asm.phase = .idle → b.getLsbD 7 = false →
    (∀ c : MultiCmd, s.cfg.codeOf c ≠ multiCommand b) →
    step s = .next
      { s with
        input := rest
        holdConst := hold
        asm := if s.cfg.resync = .restart then ⟨.idle, [], 0, none⟩ else ⟨.hunt, [], 0, none⟩
        result := some .errorUnknownCommand
        event := some (.diag (.unknownCommand b)) }

/-- R106: an argument byte is collected whatever its value; the frame is dispatched, and the assembler idle, in the step
that takes its last byte, and until then the step reports `Incomplete` and nothing else. -/
def Obligations.ArgumentBytesAreCollected : Prop :=
  ∀ (s : State) (b : Byte) (hold : Bool) (rest : List StepInput),
    s.input = ⟨.byte b, hold⟩ :: rest → s.asm.phase = .collect →
    ((s.asm.buf ++ [b]).length ≠ s.asm.need →
      step s = .next
        { s with
          input := rest
          holdConst := hold
          asm := { s.asm with buf := s.asm.buf ++ [b] }
          result := some .incomplete
          event := none }) ∧
    ∀ i, (s.asm.buf ++ [b]).length = s.asm.need → decode s.cfg (s.asm.buf ++ [b]) = .ok (i, []) →
      step s = exec i
        { s with
          input := rest
          holdConst := hold
          asm := ⟨.idle, [], 0, none⟩
          result := some (.complete (s.asm.buf ++ [b]))
          event := none }

/-- R108, R109: in HUNT a byte with bit 7 clear is discarded with no event and no change, and a byte with bit 7 set ends
the hunt and is taken exactly as a Single header in IDLE. -/
def Obligations.HuntEndsAtASingleHeader : Prop :=
  ∀ (s : State) (b : Byte) (hold : Bool) (rest : List StepInput),
    s.input = ⟨.byte b, hold⟩ :: rest → s.asm.phase = .hunt →
    (b.getLsbD 7 = false →
      step s = .next { s with input := rest, holdConst := hold, result := some .incomplete, event := none }) ∧
    (b.getLsbD 7 = true → step s = step { s with asm := ⟨.idle, [], 0, none⟩ })

/-- R111, R110: an `Abandon` in COLLECT discards the partial frame, reports its header and how many bytes had come, and
resynchronizes; the registry is not written. -/
def Obligations.AbandonDiscardsAPartialFrame : Prop :=
  ∀ (s : State) (hold : Bool) (rest : List StepInput) (h : Byte) (args : List Byte),
    s.input = ⟨.abandon, hold⟩ :: rest → s.asm.phase = .collect → s.asm.buf = h :: args →
    step s = .next
      { s with
        input := rest
        holdConst := hold
        asm := if s.cfg.resync = .restart then ⟨.idle, [], 0, none⟩ else ⟨.hunt, [], 0, none⟩
        result := some .abandoned
        event := some (.diag (.stalledFrame h s.asm.buf.length)) }

/-- R112: an `Abandon` with nothing in progress changes nothing and reports nothing, in IDLE and in HUNT. -/
def Obligations.AbandonWithNothingInProgress : Prop :=
  ∀ (s : State) (hold : Bool) (rest : List StepInput),
    s.input = ⟨.abandon, hold⟩ :: rest → s.asm.phase = .idle ∨ s.asm.phase = .hunt →
    step s = .next { s with input := rest, holdConst := hold, result := some .noOp, event := none }

/-- R30: with no token offered the block takes no step. That the model's step then answers a next state in which nothing
of the block has changed and nothing is reported is the model's choice (log entry 7). -/
def Obligations.NoTokenNoChange : Prop :=
  ∀ s : State, s.input = [] → step s = .next { s with result := none, event := none }

/-- R101: each step takes exactly the oldest token. -/
def Obligations.TokensAreTakenInOrder : Prop :=
  ∀ (s t : State) (x : StepInput) (rest : List StepInput), s.input = x :: rest → step s = .next t →
    t.input = rest ∧ t.holdConst = x.holdConst

/-- R107, R240: a step that reports `Incomplete` shows nothing: no registry change and no event. -/
def Obligations.PartialFramesShowNothing : Prop :=
  ∀ s t : State, step s = .next t → t.result = some .incomplete → t.cs = s.cs ∧ t.event = none

/-- R103: after every dispatched frame the assembler is IDLE and empty, whatever the frame's outcome was. That the step has
reported an event is not R103's: it is derived from R33, R141 to R147 and R172, and in a state that lacks the record the
command writes it is the model's choice (log entry 17). -/
def Obligations.IdleAfterEveryDispatch : Prop :=
  ∀ (s t : State) (frame : List Byte), step s = .next t → t.result = some (.complete frame) →
    t.asm = ⟨.idle, [], 0, none⟩ ∧ ∃ e, t.event = some e

/-- R209, R51: every diagnostic is precise: the registry is exactly as it was. -/
def Obligations.DiagnosticsArePrecise : Prop :=
  ∀ (s t : State) (d : Diag), step s = .next t → t.event = some (.diag d) → t.cs = s.cs

/-- R65: the registry never feeds back into framing: with any other registry, the same step gives the same assembler and the
same result, and leaves the same tokens. That it reports the same event is not R65's: it is derived from the rules of the
commands, R141 to R147 and R163 to R171, none of which takes its event from a record, and for a registry that lacks a
record it is the model's choice (log entry 17). -/
def Obligations.FramingIgnoresTheRegistry : Prop :=
  ∀ (s t : State) (other : List ChannelState), step s = .next t →
    ∃ u, step { s with cs := other } = .next u ∧ u.asm = t.asm ∧ u.result = t.result ∧ u.event = t.event ∧
      u.input = t.input

/-- R208: where a byte and the abandon signal come together, the partial frame is abandoned first, and the byte is then
classified as a header or hunted. -/
def Obligations.AbandonIsOrderedBeforeTheByte : Prop :=
  ∀ (s : State) (b : Byte) (hold : Bool) (h : Byte) (args : List Byte),
    s.input = [] → s.asm.phase = .collect → s.asm.buf = h :: args →
    ∃ t, step (offer (some b) true hold s) = .next t ∧
      t.event = some (.diag (.stalledFrame h s.asm.buf.length)) ∧ t.cs = s.cs ∧ t.asm.buf = [] ∧
      t.asm.phase = (if s.cfg.resync = .restart then .idle else .hunt) ∧ t.input = [⟨.byte b, hold⟩]

/-- R107: when tokens are delivered has no effect: delivering more before or after some steps comes to the same. -/
def Obligations.DeliveryTimeHasNoEffect : Prop :=
  ∀ (k : Nat) (s t : State) (more : List StepInput), k ≤ s.input.length →
    Host.Core.run Sys2Proof.core k s = .next t →
    Host.Core.run Sys2Proof.core k (deliver more s) = .next (deliver more t)

/-- R107, R60: a Multi frame fed from IDLE is dispatched in the step that takes its last byte and never before: after every
proper prefix nothing has been written or reported, and the last step runs the command. -/
def Obligations.FrameRunsAtItsLastByte : Prop :=
  ∀ (s : State) (i : Instr) (hold : Bool) (later : List StepInput),
    Legal s → s.asm.phase = .idle → i.wf s.cfg = true → s.input = frameTokens s.cfg i hold ++ later →
    (∀ k, 0 < k → k < (encode s.cfg i).length → ∃ t, Host.Core.run Sys2Proof.core k s = .next t ∧
      t.cs = s.cs ∧ t.event = none ∧ t.result = some .incomplete ∧ t.asm.buf = (encode s.cfg i).take k) ∧
    Host.Core.run Sys2Proof.core (encode s.cfg i).length s = exec i
      { s with
        input := later
        holdConst := hold
        asm := ⟨.idle, [], 0, none⟩
        result := some (.complete (encode s.cfg i))
        event := none }

/-- R62, R63: exactly once, in order: the frames of any list of commands, sent one after the other from IDLE, leave the
registry that the commands give when each is run once in that order, report exactly their events in that order, and
leave the assembler IDLE with every token taken. An undefined Multi header may stand among them where the policy is
`Restart`. -/
def Obligations.FramesRunOnceInOrder : Prop :=
  ∀ (s : State) (l : List (Instr × Bool)), Legal s → s.asm.phase = .idle →
    (∀ x ∈ l, x.1.wf s.cfg = true) → (∀ x ∈ l, isUndefined x.1 = true → s.cfg.resync = .restart) →
    s.input = streamTokens s.cfg l →
    ∃ t, Host.Core.run Sys2Proof.core (streamTokens s.cfg l).length s = .next t ∧
      t.cs = registryAfter l s ∧ eventsDuring (streamTokens s.cfg l).length s = eventsOf l s ∧
      t.asm = ⟨.idle, [], 0, none⟩ ∧ t.input = []

/-- The interface of log entry 9: the frame of a table word, placed, is what the very next step runs. -/
def Obligations.PlacedFrameRunsNext : Prop :=
  ∀ (s : State) (nbits w : Nat) (i : Instr) (rest : List Byte), decode s.cfg (tableBytes nbits w) = .ok (i, rest) →
    step (s.withFetchWord nbits w) = exec i
      { s with asm := ⟨.idle, [], 0, none⟩, result := some (.complete (encode s.cfg i)), event := none }

/-! ### Single-byte commands -/

/-- R141, R148: START emits `DevStart` and changes nothing else, whatever the channel field and however often it comes. -/
def Obligations.StartEmitsDevStart : Prop :=
  ∀ (s : State) (v : BitVec 4), encode s.cfg (.start v) = [1#1 ++ v ++ 0b000#3] ∧
    exec (.start v) s = .next { s with event := some .devStart }

/-- R142, R149: STOP emits `DevStop` and changes nothing else; the step after it is as it would have been without it. -/
def Obligations.StopEmitsDevStop : Prop :=
  ∀ (s : State) (v : BitVec 4), encode s.cfg (.stop v) = [1#1 ++ v ++ 0b001#3] ∧
    exec (.stop v) s = .next { s with event := some .devStop } ∧
    step { s with event := some .devStop } = step s

/-- R143, R144: RESET gives the five source-owned fields of every channel the values of `PRESET` for that channel and its
source, leaves `src`, `mode` and `shot`, emits `DevResetAllSources` and changes nothing else. -/
def Obligations.ResetRestoresThePresets : Prop :=
  ∀ (s : State) (v : BitVec 4), encode s.cfg (.reset v) = [1#1 ++ v ++ 0b010#3] ∧
    ∃ t, exec (.reset v) s = .next t ∧ t.event = some .devResetAllSources ∧ SameButRegistryAndEvent s t ∧
      t.cs.length = s.cs.length ∧
      ∀ (ch : Nat) (r : ChannelState), s.cs[ch]? = some r →
        t.cs[ch]? = some
          { src := r.src, mode := r.mode, shot := r.shot,
            period := (presetOf s.cfg.preset ch r.src).period, factor := (presetOf s.cfg.preset ch r.src).factor,
            voff := (presetOf s.cfg.preset ch r.src).voff, son := (presetOf s.cfg.preset ch r.src).son,
            soff := (presetOf s.cfg.preset ch r.src).soff }

/-- The spec's own derivation in R143: RESET twice gives the registry of RESET once, whatever the channel fields. -/
def Obligations.ResetTwiceIsResetOnce : Prop :=
  ∀ (s : State) (v w : BitVec 4), ∃ t u, exec (.reset v) s = .next t ∧ exec (.reset w) t = .next u ∧ u.cs = t.cs

/-- R145: SWAP exchanges the whole records of the pair `SWAP_MAP` gives, leaves every other channel, emits `SrcSwap` and
changes nothing else. With a value that selects no pair it raises `InvalidChannel` and changes nothing else. -/
def Obligations.SwapExchangesTwoRecords : Prop :=
  ∀ (s : State) (v : BitVec 4), encode s.cfg (.swap v) = [1#1 ++ v ++ 0b011#3] ∧
    (∀ (a c : Fin 4) (ra rc : ChannelState), swapPair s.cfg.swapMap v = some (a, c) → s.cs[a.val]? = some ra →
      s.cs[c.val]? = some rc →
      ∃ t, exec (.swap v) s = .next t ∧ t.event = some (.srcSwap a.val c.val) ∧ SameButRegistryAndEvent s t ∧
        t.cs.length = s.cs.length ∧ t.cs[a.val]? = some rc ∧ t.cs[c.val]? = some ra ∧
        ∀ n : Nat, n ≠ a.val → n ≠ c.val → t.cs[n]? = s.cs[n]?) ∧
    (swapPair s.cfg.swapMap v = none → exec (.swap v) s = .next
      { s with event := some (.diag (.invalidChannel (1#1 ++ v ++ 0b011#3) v.toNat)) })

/-- The spec's own derivations in R145: SWAP twice with one value restores the registry, and SWAP of a channel with itself
leaves it, with the event of every SWAP. -/
def Obligations.SwapTwiceRestores : Prop :=
  ∀ (s : State) (v : BitVec 4) (a c : Fin 4), swapPair s.cfg.swapMap v = some (a, c) →
    ∃ t u, exec (.swap v) s = .next t ∧ exec (.swap v) t = .next u ∧ u.cs = s.cs ∧
      (a = c → t.cs = s.cs ∧ t.event = some (.srcSwap a.val a.val))

/-- R146, R148: IDENT emits `DevIdentity` and changes nothing else. -/
def Obligations.IdentEmitsDevIdentity : Prop :=
  ∀ (s : State) (v : BitVec 4), encode s.cfg (.ident v) = [1#1 ++ v ++ 0b111#3] ∧
    exec (.ident v) s = .next { s with event := some .devIdentity }

/-- R147: an invalid Single command of each of the three codes raises `UnknownCommand` with its header and changes nothing
else, the assembler included, under every policy. -/
def Obligations.InvalidSingleIsReported : Prop :=
  ∀ (s : State) (v : BitVec 4),
    (encode s.cfg (.invalid4 v) = [1#1 ++ v ++ 0b100#3] ∧
      exec (.invalid4 v) s = .next { s with event := some (.diag (.unknownCommand (1#1 ++ v ++ 0b100#3))) }) ∧
    (encode s.cfg (.invalid5 v) = [1#1 ++ v ++ 0b101#3] ∧
      exec (.invalid5 v) s = .next { s with event := some (.diag (.unknownCommand (1#1 ++ v ++ 0b101#3))) }) ∧
    (encode s.cfg (.invalid6 v) = [1#1 ++ v ++ 0b110#3] ∧
      exec (.invalid6 v) s = .next { s with event := some (.diag (.unknownCommand (1#1 ++ v ++ 0b110#3))) })

/-- R105, R110: the two UNDEFINED_MULTI rows report the header, resynchronize and give the result
`Error(UnknownCommand)`. -/
def Obligations.UndefinedMultiCommandsComplete : Prop :=
  ∀ (s : State) (ch : BitVec 2) (code : BitVec 4),
    exec (.undefinedLow ch code) s = .next
      { s with
        asm := if s.cfg.resync = .restart then ⟨.idle, [], 0, none⟩ else ⟨.hunt, [], 0, none⟩
        result := some .errorUnknownCommand
        event := some (.diag (.unknownCommand (0#1 ++ ch ++ (0#1 ++ code)))) } ∧
    exec (.undefinedHigh ch code) s = .next
      { s with
        asm := if s.cfg.resync = .restart then ⟨.idle, [], 0, none⟩ else ⟨.hunt, [], 0, none⟩
        result := some .errorUnknownCommand
        event := some (.diag (.unknownCommand (0#1 ++ ch ++ (1#1 ++ code)))) }

/-! ### Multi-byte commands -/

/-- R163, R166: change_source_l writes `src`, every value, and the mode LOOPBACK of the channel its header addresses, leaves
`shot`, emits `SrcSetMode` and changes nothing else; its one diagnostic is `InvalidChannel`. -/
def Obligations.ChangeSourceLSetsLoopback : Prop :=
  ∀ (s : State) (ch : BitVec 2) (src : Byte),
    encode s.cfg (.csl ch src) = [0#1 ++ ch ++ s.cfg.codeOf .changeSourceL, src] ∧
    (∀ r, ch.toNat < s.cfg.nch → s.cs[ch.toNat]? = some r → exec (.csl ch src) s = .next
      { s with
        cs := s.cs.set ch.toNat { r with src := src, mode := .loopback }
        event := some (.srcSetMode ch.toNat src .loopback none) }) ∧
    (s.cfg.nch ≤ ch.toNat → exec (.csl ch src) s = .next
      { s with event := some (.diag (.invalidChannel (0#1 ++ ch ++ s.cfg.codeOf .changeSourceL) ch.toNat)) })

/-- R164, R166: change_source_o writes `src`, every value, and the mode ONE_SHOT of the channel its header addresses, leaves
`shot`, emits `SrcSetMode` and changes nothing else; its one diagnostic is `InvalidChannel`. -/
def Obligations.ChangeSourceOSetsOneShot : Prop :=
  ∀ (s : State) (ch : BitVec 2) (src : Byte),
    encode s.cfg (.cso ch src) = [0#1 ++ ch ++ s.cfg.codeOf .changeSourceO, src] ∧
    (∀ r, ch.toNat < s.cfg.nch → s.cs[ch.toNat]? = some r → exec (.cso ch src) s = .next
      { s with
        cs := s.cs.set ch.toNat { r with src := src, mode := .oneShot }
        event := some (.srcSetMode ch.toNat src .oneShot none) }) ∧
    (s.cfg.nch ≤ ch.toNat → exec (.cso ch src) s = .next
      { s with event := some (.diag (.invalidChannel (0#1 ++ ch ++ s.cfg.codeOf .changeSourceO) ch.toNat)) })

/-- R165, R166: change_source_n writes `src`, the mode N_SHOT and `shot`, every value, of the channel its header addresses,
together, emits `SrcSetMode` and changes nothing else; its one diagnostic is `InvalidChannel`. -/
def Obligations.ChangeSourceNSetsNShot : Prop :=
  ∀ (s : State) (ch : BitVec 2) (src shot : Byte),
    encode s.cfg (.csn ch src shot) = [0#1 ++ ch ++ s.cfg.codeOf .changeSourceN, src, shot] ∧
    (∀ r, ch.toNat < s.cfg.nch → s.cs[ch.toNat]? = some r → exec (.csn ch src shot) s = .next
      { s with
        cs := s.cs.set ch.toNat { r with src := src, mode := .nShot, shot := shot }
        event := some (.srcSetMode ch.toNat src .nShot (some shot)) }) ∧
    (s.cfg.nch ≤ ch.toNat → exec (.csn ch src shot) s = .next
      { s with event := some (.diag (.invalidChannel (0#1 ++ ch ++ s.cfg.codeOf .changeSourceN) ch.toNat)) })

/-- R167: change_time_period sets the period, every value, when the hold time is constant, emits `SrcSetTimePeriod` and
changes nothing else; otherwise it raises `RejectedMutation` and writes nothing; the channel check comes first. -/
def Obligations.TimePeriodNeedsAConstantHoldTime : Prop :=
  ∀ (s : State) (ch : BitVec 2) (v : Word32),
    encode s.cfg (.ctp ch v) = (0#1 ++ ch ++ s.cfg.codeOf .changeTimePeriod) :: bytes32 s.cfg.argEndian v ∧
    (∀ r, ch.toNat < s.cfg.nch → s.cs[ch.toNat]? = some r → s.holdConst = true → exec (.ctp ch v) s = .next
      { s with
        cs := s.cs.set ch.toNat { r with period := v }
        event := some (.srcSetTimePeriod ch.toNat v) }) ∧
    (ch.toNat < s.cfg.nch → s.holdConst = false → exec (.ctp ch v) s = .next
      { s with
        event := some (.diag (.rejectedMutation (0#1 ++ ch ++ s.cfg.codeOf .changeTimePeriod) ch.toNat .holdTimeNotConstant)) }) ∧
    (s.cfg.nch ≤ ch.toNat → exec (.ctp ch v) s = .next
      { s with event := some (.diag (.invalidChannel (0#1 ++ ch ++ s.cfg.codeOf .changeTimePeriod) ch.toNat)) })

/-- R168: time_factor stores the received bits exactly when they are 0x00000001 to 0x7F7FFFFF, emits `SrcSetTimeFactor` and
changes nothing else; otherwise it raises `RejectedMutation` and writes nothing; the channel check comes first. -/
def Obligations.TimeFactorStoresPositiveFinite : Prop :=
  ∀ (s : State) (ch : BitVec 2) (f : Word32),
    encode s.cfg (.tf ch f) = (0#1 ++ ch ++ s.cfg.codeOf .timeFactor) :: bytes32 s.cfg.argEndian f ∧
    (∀ r, ch.toNat < s.cfg.nch → s.cs[ch.toNat]? = some r → 0x00000001#32 ≤ f → f ≤ 0x7F7FFFFF#32 → exec (.tf ch f) s = .next
      { s with
        cs := s.cs.set ch.toNat { r with factor := f }
        event := some (.srcSetTimeFactor ch.toNat f) }) ∧
    (ch.toNat < s.cfg.nch → (f = 0#32 ∨ 0x7F7FFFFF#32 < f) → exec (.tf ch f) s = .next
      { s with
        event := some (.diag (.rejectedMutation (0#1 ++ ch ++ s.cfg.codeOf .timeFactor) ch.toNat .factorOutOfDomain)) }) ∧
    (s.cfg.nch ≤ ch.toNat → exec (.tf ch f) s = .next
      { s with event := some (.diag (.invalidChannel (0#1 ++ ch ++ s.cfg.codeOf .timeFactor) ch.toNat)) })

/-- R168: the accepted words are exactly the positive finite binary32 values, subnormals included: sign clear, exponent not
0xFF, not zero (the layout is the spec's general knowledge, log entry 15). -/
def Obligations.AcceptedFactorsArePositiveFinite : Prop :=
  ∀ f : Word32, factorInDomain f = true ↔
    (f.getLsbD 31 = false ∧ f.extractLsb' 23 8 ≠ 0xFF#8 ∧ ¬ (f.extractLsb' 23 8 = 0 ∧ f.extractLsb' 0 23 = 0))

/-- R169: voltage_offset stores every value but 0, emits `SrcSetVoltageOffset` and changes nothing else; 0 raises
`RejectedMutation` and writes nothing; the channel check comes first. -/
def Obligations.VoltageOffsetStoresNonZero : Prop :=
  ∀ (s : State) (ch : BitVec 2) (v : Word16),
    encode s.cfg (.voff ch v) = (0#1 ++ ch ++ s.cfg.codeOf .voltageOffset) :: bytes16 s.cfg.argEndian v ∧
    (∀ r, ch.toNat < s.cfg.nch → s.cs[ch.toNat]? = some r → 1#16 ≤ v → exec (.voff ch v) s = .next
      { s with
        cs := s.cs.set ch.toNat { r with voff := v }
        event := some (.srcSetVoltageOffset ch.toNat v) }) ∧
    (ch.toNat < s.cfg.nch → v = 0#16 → exec (.voff ch v) s = .next
      { s with
        event := some (.diag (.rejectedMutation (0#1 ++ ch ++ s.cfg.codeOf .voltageOffset) ch.toNat .offsetOutOfDomain)) }) ∧
    (s.cfg.nch ≤ ch.toNat → exec (.voff ch v) s = .next
      { s with event := some (.diag (.invalidChannel (0#1 ++ ch ++ s.cfg.codeOf .voltageOffset) ch.toNat)) })

/-- R170: square_on_time stores every value, emits `SrcSetSquareOnTime` and changes nothing else; its one diagnostic is
`InvalidChannel`. -/
def Obligations.SquareOnTimeIsStored : Prop :=
  ∀ (s : State) (ch : BitVec 2) (v : Word32),
    encode s.cfg (.son ch v) = (0#1 ++ ch ++ s.cfg.codeOf .squareOnTime) :: bytes32 s.cfg.argEndian v ∧
    (∀ r, ch.toNat < s.cfg.nch → s.cs[ch.toNat]? = some r → exec (.son ch v) s = .next
      { s with
        cs := s.cs.set ch.toNat { r with son := v }
        event := some (.srcSetSquareOnTime ch.toNat v) }) ∧
    (s.cfg.nch ≤ ch.toNat → exec (.son ch v) s = .next
      { s with event := some (.diag (.invalidChannel (0#1 ++ ch ++ s.cfg.codeOf .squareOnTime) ch.toNat)) })

/-- R171: square_off_time stores every value, emits `SrcSetSquareOffTime` and changes nothing else, `son` included; its one
diagnostic is `InvalidChannel`. -/
def Obligations.SquareOffTimeIsStored : Prop :=
  ∀ (s : State) (ch : BitVec 2) (v : Word32),
    encode s.cfg (.soff ch v) = (0#1 ++ ch ++ s.cfg.codeOf .squareOffTime) :: bytes32 s.cfg.argEndian v ∧
    (∀ r, ch.toNat < s.cfg.nch → s.cs[ch.toNat]? = some r → exec (.soff ch v) s = .next
      { s with
        cs := s.cs.set ch.toNat { r with soff := v }
        event := some (.srcSetSquareOffTime ch.toNat v) }) ∧
    (s.cfg.nch ≤ ch.toNat → exec (.soff ch v) s = .next
      { s with event := some (.diag (.invalidChannel (0#1 ++ ch ++ s.cfg.codeOf .squareOffTime) ch.toNat)) })

/-- R161: a Multi command whose channel is not below `NCH` raises `InvalidChannel` with its header and changes nothing else,
before any condition of its own. -/
def Obligations.ChannelOutsideTheSetIsReported : Prop :=
  ∀ (s : State) (ch : BitVec 2) (a b : Byte) (v : Word32) (x : Word16), s.cfg.nch ≤ ch.toNat →
    ∀ i ∈ [Instr.csl ch a, .cso ch a, .csn ch a b, .ctp ch v, .tf ch v, .voff ch x, .son ch v, .soff ch v],
      exec i s = .next { s with event := some (.diag (.invalidChannel (header s.cfg i) ch.toNat)) }

/-- From R172, in part: a Multi command writes no channel but the one its header addresses and touches nothing but the
registry and the event. It reports, on a channel of the set, some event that is no diagnostic; or, on a channel outside
it, `InvalidChannel` with no write; or, on a channel of the set, `RejectedMutation` with no write. Which event the first
outcome reports and what it writes, each command's own statement says (`ChangeSourceLSetsLoopback` and those after it),
not this one. -/
def Obligations.MultiCommandsHaveThreeOutcomes : Prop :=
  ∀ (s t : State) (ch : BitVec 2) (a b : Byte) (v : Word32) (x : Word16),
    ∀ i ∈ [Instr.csl ch a, .cso ch a, .csn ch a b, .ctp ch v, .tf ch v, .voff ch x, .son ch v, .soff ch v],
      exec i s = .next t →
      SameButRegistryAndEvent s t ∧ t.cs.length = s.cs.length ∧ (∀ n : Nat, n ≠ ch.toNat → t.cs[n]? = s.cs[n]?) ∧
      ((ch.toNat < s.cfg.nch ∧ ∃ e, t.event = some e ∧ ∀ d, e ≠ .diag d) ∨
       (s.cfg.nch ≤ ch.toNat ∧ t.cs = s.cs ∧
          t.event = some (.diag (.invalidChannel (header s.cfg i) ch.toNat))) ∨
       (ch.toNat < s.cfg.nch ∧ t.cs = s.cs ∧
          ∃ why, t.event = some (.diag (.rejectedMutation (header s.cfg i) ch.toNat why))))

/-- R24, R25, R144, R166: each field of a record is written only by the commands the table names; every other command
leaves it, on every channel. -/
def Obligations.FieldsHaveTheirWriters : Prop :=
  ∀ (i : Instr) (s t : State) (ch : Nat) (r r' : ChannelState), exec i s = .next t → s.cs[ch]? = some r →
    t.cs[ch]? = some r' →
    (match i with
      | .csl _ _ | .cso _ _ | .csn _ _ _ | .swap _ => True
      | _ => r'.src = r.src ∧ r'.mode = r.mode) ∧
    (match i with
      | .csn _ _ _ | .swap _ => True
      | _ => r'.shot = r.shot) ∧
    (match i with
      | .ctp _ _ | .reset _ | .swap _ => True
      | _ => r'.period = r.period) ∧
    (match i with
      | .tf _ _ | .reset _ | .swap _ => True
      | _ => r'.factor = r.factor) ∧
    (match i with
      | .voff _ _ | .reset _ | .swap _ => True
      | _ => r'.voff = r.voff) ∧
    (match i with
      | .son _ _ | .reset _ | .swap _ => True
      | _ => r'.son = r.son) ∧
    (match i with
      | .soff _ _ | .reset _ | .swap _ => True
      | _ => r'.soff = r.soff)

/-- R52, R50: the read port gives the record of a channel below `NCH`, in every state that meets the invariant, and refuses
every other channel. -/
def Obligations.ReadPortGivesTheRecord : Prop :=
  ∀ (s : State) (ch : Nat), Legal s →
    (ch < s.cfg.nch → ∃ r, getChannel ch s = .ok r ∧ s.cs[ch]? = some r) ∧
    (s.cfg.nch ≤ ch → getChannel ch s = .error (.readOutsideRegistry ch))

/-- R200: the codes of the four diagnostic kinds, in the source's order. -/
def Obligations.DiagnosticCodes : Prop :=
  ∀ (h : Byte) (n ch : Nat) (why : RejectReason),
    diagCode (.unknownCommand h) = 1 ∧ diagCode (.stalledFrame h n) = 2 ∧ diagCode (.invalidChannel h ch) = 3 ∧
    diagCode (.rejectedMutation h ch why) = 4
end

