-- ==== Sys2Proof/Laws/Decode.lean ====
section
/-! SUPPORT. The header decoder against the header encoder (spec/41_header_decoder.md R135), argument bytes against
argument values (spec/30_encoding.md R80), and the command tables against each other (R76). -/

namespace Sys2Proof

/-! ### Headers -/

@[simp] theorem kindOf_encSingle (v : BitVec 4) (c : BitVec 3) : kindOf (encSingle v c) = .single := by
  revert v c; decide

@[simp] theorem singleChannel_encSingle (v : BitVec 4) (c : BitVec 3) : singleChannel (encSingle v c) = v := by
  revert v c; decide

@[simp] theorem singleCommand_encSingle (v : BitVec 4) (c : BitVec 3) : singleCommand (encSingle v c) = c := by
  revert v c; decide

@[simp] theorem kindOf_encMultiHeader (ch : BitVec 2) (c : BitVec 5) : kindOf (encMultiHeader ch c) = .multi := by
  revert ch c; decide

@[simp] theorem multiChannel_encMultiHeader (ch : BitVec 2) (c : BitVec 5) : multiChannel (encMultiHeader ch c) = ch := by
  revert ch c; decide

@[simp] theorem multiCommand_encMultiHeader (ch : BitVec 2) (c : BitVec 5) : multiCommand (encMultiHeader ch c) = c := by
  revert ch c; decide

theorem kindOf_of_set {b : Byte} (h : b.getLsbD 7 = true) : kindOf b = .single := by simp only [kindOf, h, if_true]

theorem kindOf_of_clear {b : Byte} (h : b.getLsbD 7 = false) : kindOf b = .multi := by
  simp only [kindOf, h, Bool.false_eq_true, if_false]

theorem single_fields_spell_header {b : Byte} (h : kindOf b = .single) :
    encSingle (singleChannel b) (singleCommand b) = b := by
  revert b; decide

theorem multi_fields_spell_header {b : Byte} (h : kindOf b = .multi) :
    encMultiHeader (multiChannel b) (multiCommand b) = b := by
  revert b; decide

/-! ### Codes of undefined headers: bit 4, then the low four bits -/

theorem low_code {c : BitVec 5} (h : c.getLsbD 4 = false) : 0#1 ++ c.extractLsb' 0 4 = c := by
  revert c; decide

theorem high_code {c : BitVec 5} (h : c.getLsbD 4 = true) : 1#1 ++ c.extractLsb' 0 4 = c := by
  revert c; decide

@[simp] theorem decodeUndefined_low (ch : BitVec 2) (code : BitVec 4) :
    decodeUndefined (encMultiHeader ch (0#1 ++ code)) = .undefinedLow ch code := by
  revert ch code; decide

@[simp] theorem decodeUndefined_high (ch : BitVec 2) (code : BitVec 4) :
    decodeUndefined (encMultiHeader ch (1#1 ++ code)) = .undefinedHigh ch code := by
  revert ch code; decide

/-! ### Argument values and their bytes -/

/-- The two bytes of a 16-bit value, the high one first. -/
theorem halves16 (v : Word16) : v.extractLsb' 8 8 ++ v.extractLsb' 0 8 = v := by
  apply BitVec.eq_of_getLsbD_eq
  intro i hi
  simp only [BitVec.getLsbD_append, BitVec.getLsbD_extractLsb']
  by_cases h : i < 8
  · simp [h]
  · have h' : i - 8 < 8 := by omega
    have h2 : 8 + (i - 8) = i := by omega
    simp [h, h', h2]

/-- The four bytes of a 32-bit value, the highest first. -/
theorem quarters32 (v : Word32) :
    v.extractLsb' 24 8 ++ v.extractLsb' 16 8 ++ v.extractLsb' 8 8 ++ v.extractLsb' 0 8 = v := by
  apply BitVec.eq_of_getLsbD_eq
  intro i hi
  simp only [BitVec.getLsbD_append, BitVec.getLsbD_extractLsb']
  by_cases h1 : i < 8
  · simp [h1]
  · by_cases h2 : i - 8 < 8
    · simp [h1, h2]; congr 1; omega
    · by_cases h3 : i - 8 - 8 < 8
      · simp [h1, h2, h3]; congr 1; omega
      · have h4 : i - 8 - 8 - 8 < 8 := by omega
        simp [h1, h2, h3, h4]; congr 1; omega

theorem append16_low (a b : Byte) : (a ++ b).extractLsb' 0 8 = b := by
  apply BitVec.eq_of_getLsbD_eq
  intro i hi
  simp only [BitVec.getLsbD_extractLsb', BitVec.getLsbD_append, hi, decide_true, Bool.true_and, if_true,
    Nat.zero_add]

theorem append16_high (a b : Byte) : (a ++ b).extractLsb' 8 8 = a := by
  apply BitVec.eq_of_getLsbD_eq
  intro i hi
  have h1 : ¬ 8 + i < 8 := by omega
  have h2 : 8 + i - 8 = i := by omega
  simp only [BitVec.getLsbD_extractLsb', BitVec.getLsbD_append, hi, h1, h2, decide_true, Bool.true_and,
    if_false]

theorem append32_byte0 (a b c d : Byte) : (a ++ b ++ c ++ d).extractLsb' 0 8 = d := by
  apply BitVec.eq_of_getLsbD_eq
  intro i hi
  simp only [BitVec.getLsbD_extractLsb', BitVec.getLsbD_append, hi, decide_true, Bool.true_and, if_true,
    Nat.zero_add]

theorem append32_byte1 (a b c d : Byte) : (a ++ b ++ c ++ d).extractLsb' 8 8 = c := by
  apply BitVec.eq_of_getLsbD_eq
  intro i hi
  have h1 : ¬ 8 + i < 8 := by omega
  have h2 : 8 + i - 8 = i := by omega
  simp only [BitVec.getLsbD_extractLsb', BitVec.getLsbD_append, hi, h1, h2, decide_true, Bool.true_and, if_true,
    if_false]

theorem append32_byte2 (a b c d : Byte) : (a ++ b ++ c ++ d).extractLsb' 16 8 = b := by
  apply BitVec.eq_of_getLsbD_eq
  intro i hi
  have h1 : ¬ 16 + i < 8 := by omega
  have h2 : ¬ 16 + i - 8 < 8 := by omega
  have h3 : 16 + i - 8 - 8 = i := by omega
  simp only [BitVec.getLsbD_extractLsb', BitVec.getLsbD_append, hi, h1, h2, h3, decide_true, Bool.true_and, if_true,
    if_false]

theorem append32_byte3 (a b c d : Byte) : (a ++ b ++ c ++ d).extractLsb' 24 8 = a := by
  apply BitVec.eq_of_getLsbD_eq
  intro i hi
  have h1 : ¬ 24 + i < 8 := by omega
  have h2 : ¬ 24 + i - 8 < 8 := by omega
  have h3 : ¬ 24 + i - 8 - 8 < 8 := by omega
  have h4 : 24 + i - 8 - 8 - 8 = i := by omega
  simp only [BitVec.getLsbD_extractLsb', BitVec.getLsbD_append, hi, h1, h2, h3, h4, decide_true, Bool.true_and,
    if_false]

/-- The bytes of a 16-bit value spell it again. -/
theorem bytes16_spell (e : Endian) (v : Word16) :
    ∃ b0 b1, bytes16 e v = [b0, b1] ∧ u16 e b0 b1 = v := by
  cases e
  · exact ⟨_, _, rfl, halves16 v⟩
  · exact ⟨_, _, rfl, halves16 v⟩

/-- The bytes of a 32-bit value spell it again. -/
theorem bytes32_spell (e : Endian) (v : Word32) :
    ∃ b0 b1 b2 b3, bytes32 e v = [b0, b1, b2, b3] ∧ u32 e b0 b1 b2 b3 = v := by
  cases e
  · exact ⟨_, _, _, _, rfl, quarters32 v⟩
  · exact ⟨_, _, _, _, rfl, quarters32 v⟩

/-- A 16-bit value has the bytes it was assembled from. -/
@[simp] theorem bytes16_u16 (e : Endian) (b0 b1 : Byte) : bytes16 e (u16 e b0 b1) = [b0, b1] := by
  cases e <;> simp only [bytes16, u16, append16_low, append16_high]

/-- A 32-bit value has the bytes it was assembled from. -/
@[simp] theorem bytes32_u32 (e : Endian) (b0 b1 b2 b3 : Byte) : bytes32 e (u32 e b0 b1 b2 b3) = [b0, b1, b2, b3] := by
  cases e <;> simp only [bytes32, u32, append32_byte0, append32_byte1, append32_byte2, append32_byte3]

@[simp] theorem bytes16_length (e : Endian) (v : Word16) : (bytes16 e v).length = 2 := by cases e <;> rfl

@[simp] theorem bytes32_length (e : Endian) (v : Word32) : (bytes32 e v).length = 4 := by cases e <;> rfl

/-! ### MULTI_CODE and its inverse -/

theorem mem_all (c : MultiCmd) : c ∈ MultiCmd.all := by cases c <;> decide

/-- Two commands of an injective `MULTI_CODE` with one code are one command. -/
theorem codeOf_injective {p : Params} (h : p.codesOk = true) {c d : MultiCmd} (hcd : p.codeOf c = p.codeOf d) : c = d :=
  List.inj_on_of_nodup_map (of_decide_eq_true h) (mem_all c) (mem_all d) hcd

/-- The command `MULTI_CODE⁻¹` gives for a code has that code. -/
theorem codeOf_of_commandOf {p : Params} {code : BitVec 5} {c : MultiCmd} (h : p.commandOf code = some c) :
    p.codeOf c = code := by
  have := List.find?_some h
  simpa using this

/-- `MULTI_CODE⁻¹` undoes an injective `MULTI_CODE`. -/
theorem commandOf_codeOf {p : Params} (h : p.codesOk = true) (c : MultiCmd) : p.commandOf (p.codeOf c) = some c := by
  unfold Params.commandOf
  cases hf : MultiCmd.all.find? (fun d => p.codeOf d == p.codeOf c) with
  | none => simpa using List.find?_eq_none.mp hf c (mem_all c)
  | some d =>
    have hd : p.codeOf d = p.codeOf c := by simpa using List.find?_some hf
    rw [codeOf_injective h hd]

/-- A code is undefined exactly when `MULTI_CODE⁻¹` has nothing for it. -/
theorem undefinedCode_iff {p : Params} {code : BitVec 5} : p.undefinedCode code = true ↔ p.commandOf code = none := by
  simp [Params.undefinedCode, Params.commandOf, List.find?_eq_none]

theorem Params.wf_codesOk {p : Params} (h : p.wf = true) : p.codesOk = true := by
  simp only [Params.wf, Bool.and_eq_true] at h
  exact h.1.1.2

theorem size_ge_two (c : MultiCmd) : 2 ≤ c.size := by cases c <;> decide

theorem size_le_five (c : MultiCmd) : c.size ≤ 5 := by cases c <;> decide

/-! ### Frames -/

/-- What the argument decoder answers: either the command whose encoding has these argument bytes, on this channel and of
its whole size, or that the frame is unfinished because bytes are missing. -/
theorem decodeArgs_cases (e : Endian) (c : MultiCmd) (ch : BitVec 2) (args : List Byte) :
    (∃ i rest, decodeArgs e c ch args = .ok (i, rest) ∧ args = argBytes e i ++ rest ∧
      (argBytes e i).length + 1 = c.size ∧ (∀ p : Params, header p i = p.multiHeader c ch) ∧ ∀ p : Params, i.wf p = true) ∨
    (decodeArgs e c ch args = .error (.unfinished c.size) ∧ args.length + 1 < c.size) := by
  cases c
  · rcases args with _ | ⟨a, rest⟩
    · exact .inr ⟨rfl, by decide⟩
    · exact .inl ⟨.csl ch a, rest, rfl, rfl, rfl, fun _ => rfl, fun _ => rfl⟩
  · rcases args with _ | ⟨a, rest⟩
    · exact .inr ⟨rfl, by decide⟩
    · exact .inl ⟨.cso ch a, rest, rfl, rfl, rfl, fun _ => rfl, fun _ => rfl⟩
  · rcases args with _ | ⟨a, _ | ⟨b, rest⟩⟩
    · exact .inr ⟨rfl, by decide⟩
    · exact .inr ⟨rfl, by simp [MultiCmd.size]⟩
    · exact .inl ⟨.csn ch a b, rest, rfl, rfl, rfl, fun _ => rfl, fun _ => rfl⟩
  · rcases args with _ | ⟨a, _ | ⟨b, _ | ⟨c, _ | ⟨d, rest⟩⟩⟩⟩
    iterate 4 exact .inr ⟨rfl, by simp [MultiCmd.size]⟩
    exact .inl ⟨.ctp ch (u32 e a b c d), rest, rfl, by simp [argBytes], by simp [argBytes, MultiCmd.size], fun _ => rfl, fun _ => rfl⟩
  · rcases args with _ | ⟨a, _ | ⟨b, _ | ⟨c, _ | ⟨d, rest⟩⟩⟩⟩
    iterate 4 exact .inr ⟨rfl, by simp [MultiCmd.size]⟩
    exact .inl ⟨.tf ch (u32 e a b c d), rest, rfl, by simp [argBytes], by simp [argBytes, MultiCmd.size], fun _ => rfl, fun _ => rfl⟩
  · rcases args with _ | ⟨a, _ | ⟨b, rest⟩⟩
    iterate 2 exact .inr ⟨rfl, by simp [MultiCmd.size]⟩
    exact .inl ⟨.voff ch (u16 e a b), rest, rfl, by simp [argBytes], by simp [argBytes, MultiCmd.size], fun _ => rfl, fun _ => rfl⟩
  · rcases args with _ | ⟨a, _ | ⟨b, _ | ⟨c, _ | ⟨d, rest⟩⟩⟩⟩
    iterate 4 exact .inr ⟨rfl, by simp [MultiCmd.size]⟩
    exact .inl ⟨.son ch (u32 e a b c d), rest, rfl, by simp [argBytes], by simp [argBytes, MultiCmd.size], fun _ => rfl, fun _ => rfl⟩
  · rcases args with _ | ⟨a, _ | ⟨b, _ | ⟨c, _ | ⟨d, rest⟩⟩⟩⟩
    iterate 4 exact .inr ⟨rfl, by simp [MultiCmd.size]⟩
    exact .inl ⟨.soff ch (u32 e a b c d), rest, rfl, by simp [argBytes], by simp [argBytes, MultiCmd.size], fun _ => rfl, fun _ => rfl⟩

/-- A Single header and its command spell each other. -/
theorem header_decodeSingle {p : Params} {h : Byte} (hk : kindOf h = .single) :
    header p (decodeSingle h) = h ∧ argBytes p.argEndian (decodeSingle h) = [] ∧ (decodeSingle h).wf p = true := by
  have hb := single_fields_spell_header hk
  rcases p with ⟨n, m, e, r, sm, d, t⟩
  have key : ∀ (v : BitVec 4) (c : BitVec 3), singleChannel h = v → singleCommand h = c →
      header ⟨n, m, e, r, sm, d, t⟩ (decodeSingle h) = encSingle v c ∧ argBytes e (decodeSingle h) = [] ∧
        (decodeSingle h).wf ⟨n, m, e, r, sm, d, t⟩ = true := by
    intro v c hv hc
    simp only [decodeSingle, hv, hc]
    rcases c with ⟨⟨c, hlt⟩⟩
    interval_cases c <;> exact ⟨rfl, rfl, rfl⟩
  have := key _ _ rfl rfl
  rw [hb] at this
  exact this

/-- An undefined Multi header and its instruction spell each other. -/
theorem header_decodeUndefined {p : Params} {h : Byte} (hk : kindOf h = .multi)
    (hu : p.commandOf (multiCommand h) = none) :
    header p (decodeUndefined h) = h ∧ argBytes p.argEndian (decodeUndefined h) = [] ∧
      (decodeUndefined h).wf p = true := by
  have hb := multi_fields_spell_header hk
  unfold decodeUndefined
  by_cases h4 : (multiCommand h).getLsbD 4 = true
  · simp only [h4, if_true]
    refine ⟨?_, rfl, ?_⟩
    · simp only [header, high_code h4, hb]
    · simp only [Instr.wf, high_code h4, undefinedCode_iff, hu]
  · have h4' : (multiCommand h).getLsbD 4 = false := by simpa using h4
    simp only [h4', Bool.false_eq_true, if_false]
    refine ⟨?_, rfl, ?_⟩
    · simp only [header, low_code h4', hb]
    · simp only [Instr.wf, low_code h4', undefinedCode_iff, hu]

end Sys2Proof
end

