-- ==== Sys2Proof/Laws/State.lean ====
section
/-! SUPPORT. One lemma per field per named update of the state, each true by unfolding once, so that no later proof
unfolds a record update. -/

namespace Sys2Proof.Machine

open Sys2Proof

/-! ### emit -/

@[simp] theorem emit_cfg (e : Event) (s : State) : (emit e s).cfg = s.cfg := rfl
@[simp] theorem emit_asm (e : Event) (s : State) : (emit e s).asm = s.asm := rfl
@[simp] theorem emit_cs (e : Event) (s : State) : (emit e s).cs = s.cs := rfl
@[simp] theorem emit_input (e : Event) (s : State) : (emit e s).input = s.input := rfl
@[simp] theorem emit_holdConst (e : Event) (s : State) : (emit e s).holdConst = s.holdConst := rfl
@[simp] theorem emit_result (e : Event) (s : State) : (emit e s).result = s.result := rfl
@[simp] theorem emit_event (e : Event) (s : State) : (emit e s).event = some e := rfl

/-! ### raise -/

@[simp] theorem raise_cfg (d : Diag) (s : State) : (raise d s).cfg = s.cfg := rfl
@[simp] theorem raise_asm (d : Diag) (s : State) : (raise d s).asm = s.asm := rfl
@[simp] theorem raise_cs (d : Diag) (s : State) : (raise d s).cs = s.cs := rfl
@[simp] theorem raise_input (d : Diag) (s : State) : (raise d s).input = s.input := rfl
@[simp] theorem raise_holdConst (d : Diag) (s : State) : (raise d s).holdConst = s.holdConst := rfl
@[simp] theorem raise_result (d : Diag) (s : State) : (raise d s).result = s.result := rfl
@[simp] theorem raise_event (d : Diag) (s : State) : (raise d s).event = some (.diag d) := rfl

/-! ### report -/

@[simp] theorem report_cfg (r : StepResult) (s : State) : (report r s).cfg = s.cfg := rfl
@[simp] theorem report_asm (r : StepResult) (s : State) : (report r s).asm = s.asm := rfl
@[simp] theorem report_cs (r : StepResult) (s : State) : (report r s).cs = s.cs := rfl
@[simp] theorem report_input (r : StepResult) (s : State) : (report r s).input = s.input := rfl
@[simp] theorem report_holdConst (r : StepResult) (s : State) : (report r s).holdConst = s.holdConst := rfl
@[simp] theorem report_result (r : StepResult) (s : State) : (report r s).result = some r := rfl
@[simp] theorem report_event (r : StepResult) (s : State) : (report r s).event = s.event := rfl

/-! ### resync -/

@[simp] theorem resync_cfg (s : State) : (resync s).cfg = s.cfg := rfl
@[simp] theorem resync_asm (s : State) : (resync s).asm = resyncTarget s.cfg.resync := rfl
@[simp] theorem resync_cs (s : State) : (resync s).cs = s.cs := rfl
@[simp] theorem resync_input (s : State) : (resync s).input = s.input := rfl
@[simp] theorem resync_holdConst (s : State) : (resync s).holdConst = s.holdConst := rfl
@[simp] theorem resync_result (s : State) : (resync s).result = s.result := rfl
@[simp] theorem resync_event (s : State) : (resync s).event = s.event := rfl

/-! ### apply -/

@[simp] theorem apply_cfg (ch : Nat) (m : ChannelState → ChannelState) (s : State) : (apply ch m s).cfg = s.cfg := rfl
@[simp] theorem apply_asm (ch : Nat) (m : ChannelState → ChannelState) (s : State) : (apply ch m s).asm = s.asm := rfl
@[simp] theorem apply_cs (ch : Nat) (m : ChannelState → ChannelState) (s : State) : (apply ch m s).cs = s.cs.modify ch m := rfl
@[simp] theorem apply_input (ch : Nat) (m : ChannelState → ChannelState) (s : State) : (apply ch m s).input = s.input := rfl
@[simp] theorem apply_holdConst (ch : Nat) (m : ChannelState → ChannelState) (s : State) : (apply ch m s).holdConst = s.holdConst := rfl
@[simp] theorem apply_result (ch : Nat) (m : ChannelState → ChannelState) (s : State) : (apply ch m s).result = s.result := rfl
@[simp] theorem apply_event (ch : Nat) (m : ChannelState → ChannelState) (s : State) : (apply ch m s).event = s.event := rfl

/-! ### exchange -/

@[simp] theorem exchange_cfg (a c : Nat) (s : State) : (exchange a c s).cfg = s.cfg := rfl
@[simp] theorem exchange_asm (a c : Nat) (s : State) : (exchange a c s).asm = s.asm := rfl
@[simp] theorem exchange_cs (a c : Nat) (s : State) : (exchange a c s).cs = swapRecords a c s.cs := rfl
@[simp] theorem exchange_input (a c : Nat) (s : State) : (exchange a c s).input = s.input := rfl
@[simp] theorem exchange_holdConst (a c : Nat) (s : State) : (exchange a c s).holdConst = s.holdConst := rfl
@[simp] theorem exchange_result (a c : Nat) (s : State) : (exchange a c s).result = s.result := rfl
@[simp] theorem exchange_event (a c : Nat) (s : State) : (exchange a c s).event = s.event := rfl

/-! ### restorePresets -/

@[simp] theorem restorePresets_cfg (s : State) : (restorePresets s).cfg = s.cfg := rfl
@[simp] theorem restorePresets_asm (s : State) : (restorePresets s).asm = s.asm := rfl
@[simp] theorem restorePresets_cs (s : State) : (restorePresets s).cs = s.cs.mapIdx fun ch r => withSettings (presetOf s.cfg.preset ch r.src) r := rfl
@[simp] theorem restorePresets_input (s : State) : (restorePresets s).input = s.input := rfl
@[simp] theorem restorePresets_holdConst (s : State) : (restorePresets s).holdConst = s.holdConst := rfl
@[simp] theorem restorePresets_result (s : State) : (restorePresets s).result = s.result := rfl
@[simp] theorem restorePresets_event (s : State) : (restorePresets s).event = s.event := rfl

/-! ### deliver -/

@[simp] theorem deliver_cfg (more : List StepInput) (s : State) : (deliver more s).cfg = s.cfg := rfl
@[simp] theorem deliver_asm (more : List StepInput) (s : State) : (deliver more s).asm = s.asm := rfl
@[simp] theorem deliver_cs (more : List StepInput) (s : State) : (deliver more s).cs = s.cs := rfl
@[simp] theorem deliver_input (more : List StepInput) (s : State) : (deliver more s).input = s.input ++ more := rfl
@[simp] theorem deliver_holdConst (more : List StepInput) (s : State) : (deliver more s).holdConst = s.holdConst := rfl
@[simp] theorem deliver_result (more : List StepInput) (s : State) : (deliver more s).result = s.result := rfl
@[simp] theorem deliver_event (more : List StepInput) (s : State) : (deliver more s).event = s.event := rfl

/-! ### beginStep -/

@[simp] theorem beginStep_cfg (x : StepInput) (rest : List StepInput) (s : State) : (beginStep x rest s).cfg = s.cfg := rfl
@[simp] theorem beginStep_asm (x : StepInput) (rest : List StepInput) (s : State) : (beginStep x rest s).asm = s.asm := rfl
@[simp] theorem beginStep_cs (x : StepInput) (rest : List StepInput) (s : State) : (beginStep x rest s).cs = s.cs := rfl
@[simp] theorem beginStep_input (x : StepInput) (rest : List StepInput) (s : State) : (beginStep x rest s).input = rest := rfl
@[simp] theorem beginStep_holdConst (x : StepInput) (rest : List StepInput) (s : State) : (beginStep x rest s).holdConst = x.holdConst := rfl
@[simp] theorem beginStep_result (x : StepInput) (rest : List StepInput) (s : State) : (beginStep x rest s).result = none := rfl
@[simp] theorem beginStep_event (x : StepInput) (rest : List StepInput) (s : State) : (beginStep x rest s).event = none := rfl

/-! ### boot -/

@[simp] theorem boot_cfg (p : Params) : (State.boot p).cfg = p := rfl
@[simp] theorem boot_asm (p : Params) : (State.boot p).asm = Assembler.idle := rfl
@[simp] theorem boot_cs (p : Params) : (State.boot p).cs = p.defaultState := rfl
@[simp] theorem boot_input (p : Params) : (State.boot p).input = [] := rfl
@[simp] theorem boot_result (p : Params) : (State.boot p).result = none := rfl
@[simp] theorem boot_event (p : Params) : (State.boot p).event = none := rfl

/-! ### withSettings -/

@[simp] theorem withSettings_src (p : SourceSettings) (r : ChannelState) : (withSettings p r).src = r.src := rfl
@[simp] theorem withSettings_mode (p : SourceSettings) (r : ChannelState) : (withSettings p r).mode = r.mode := rfl
@[simp] theorem withSettings_shot (p : SourceSettings) (r : ChannelState) : (withSettings p r).shot = r.shot := rfl
@[simp] theorem withSettings_period (p : SourceSettings) (r : ChannelState) : (withSettings p r).period = p.period := rfl
@[simp] theorem withSettings_factor (p : SourceSettings) (r : ChannelState) : (withSettings p r).factor = p.factor := rfl
@[simp] theorem withSettings_voff (p : SourceSettings) (r : ChannelState) : (withSettings p r).voff = p.voff := rfl
@[simp] theorem withSettings_son (p : SourceSettings) (r : ChannelState) : (withSettings p r).son = p.son := rfl
@[simp] theorem withSettings_soff (p : SourceSettings) (r : ChannelState) : (withSettings p r).soff = p.soff := rfl

end Sys2Proof.Machine
end

