-- ==== Sys2Proof/Laws/Assembler.lean ====
section
/-! SUPPORT. What the token half of a step can do, said once (spec/40_classifier_assembler.md R100 to R113). -/

namespace Sys2Proof.Machine

open Sys2Proof

/-- The state in which a complete frame's command runs. -/
def readyState (frame : List Byte) (x : StepInput) (rest : List StepInput) (s : State) : State :=
  report (.complete frame) { beginStep x rest s with asm := Assembler.idle }

/-- The shapes of what the token half of a step comes to, when the token `x` is taken. -/
inductive Taken (s : State) (x : StepInput) (rest : List StepInput) : Fetched → Prop where
  /-- The assembler moved on, or not; no event. -/
  | waiting (a : Assembler) (r : StepResult) (h : r = .incomplete ∨ r = .noOp) :
      Taken s x rest (.settled (report r { beginStep x rest s with asm := a }))
  /-- A partial frame was abandoned. -/
  | abandoned (h : Byte) (n : Nat) :
      Taken s x rest (.settled (report .abandoned (resync (raise (.stalledFrame h n) (beginStep x rest s)))))
  /-- A frame is complete. -/
  | complete (frame : List Byte) (i : Instr) (h : decodeFrame s.cfg frame = some i) :
      Taken s x rest (.run i (readyState frame x rest s))
  /-- The assembler registers are malformed. -/
  | broken : Taken s x rest .broken

theorem taken_dispatch (frame : List Byte) (s : State) (x : StepInput) (rest : List StepInput) :
    Taken s x rest (dispatchFrame frame (beginStep x rest s)) := by
  unfold dispatchFrame
  rw [beginStep_cfg]
  split
  · exact .complete frame _ ‹_›
  · exact .broken

theorem taken_byte (b : Byte) (s : State) (x : StepInput) (rest : List StepInput) :
    Taken s x rest (takeByte b (beginStep x rest s)) := by
  unfold takeByte
  split
  · unfold takeHeader
    split
    · exact taken_dispatch _ _ _ _
    · split
      · exact .waiting _ _ (.inl rfl)
      · exact taken_dispatch _ _ _ _
  · unfold takeArgument
    dsimp only
    split
    · exact taken_dispatch _ _ _ _
    · exact .waiting _ _ (.inl rfl)
  · unfold takeCandidate
    split
    · exact taken_dispatch _ _ _ _
    · exact .waiting s.asm _ (.inl rfl)

theorem taken_abandon (s : State) (x : StepInput) (rest : List StepInput) :
    Taken s x rest (takeAbandon (beginStep x rest s)) := by
  unfold takeAbandon
  split
  · split
    · exact .abandoned _ _
    · exact .broken
  · exact .waiting s.asm _ (.inr rfl)
  · exact .waiting s.asm _ (.inr rfl)

/-- The token half of a step takes the oldest token, in one of the shapes of `Taken`. -/
theorem fetch_taken {s : State} {x : StepInput} {rest : List StepInput} (h : s.input = x :: rest) :
    Taken s x rest (fetch s) := by
  unfold fetch
  rw [h]
  dsimp only
  split
  · exact taken_byte _ _ _ _
  · exact taken_abandon _ _ _

/-- With no token nothing of the block changes and nothing is reported. -/
theorem fetch_none {s : State} (h : s.input = []) : fetch s = .settled { s with result := none, event := none } := by
  unfold fetch
  rw [h]

/-- What each answer of the token half makes of the step. -/
theorem step_settled {s t : State} (h : fetch s = .settled t) : step s = .next t := by simp only [step, h]

theorem step_run {s t : State} {i : Instr} (h : fetch s = .run i t) : step s = exec i t := by simp only [step, h]

theorem step_broken {s : State} (h : fetch s = .broken) : step s = .fault .malformedAssembler := by simp only [step, h]

/-! ### The token half, case by case -/

theorem fetch_byte {s : State} {b : Byte} {hold : Bool} {rest : List StepInput} (h : s.input = ⟨.byte b, hold⟩ :: rest) :
    fetch s = takeByte b (beginStep ⟨.byte b, hold⟩ rest s) := by
  unfold fetch
  rw [h]

theorem fetch_abandon {s : State} {hold : Bool} {rest : List StepInput} (h : s.input = ⟨.abandon, hold⟩ :: rest) :
    fetch s = takeAbandon (beginStep ⟨.abandon, hold⟩ rest s) := by
  unfold fetch
  rw [h]

/-- A Single header in IDLE is a whole frame. -/
theorem fetch_single {s : State} {b : Byte} {hold : Bool} {rest : List StepInput}
    (h : s.input = ⟨.byte b, hold⟩ :: rest) (hp : s.asm.phase = .idle) (hk : kindOf b = .single) :
    fetch s = dispatchFrame [b] (beginStep ⟨.byte b, hold⟩ rest s) := by
  simp only [fetch_byte h, takeByte, beginStep_asm, hp, takeHeader, hk]

/-- A defined Multi header in IDLE starts a frame. -/
theorem fetch_multi {s : State} {b : Byte} {hold : Bool} {rest : List StepInput} {c : MultiCmd}
    (h : s.input = ⟨.byte b, hold⟩ :: rest) (hp : s.asm.phase = .idle) (hk : kindOf b = .multi)
    (hc : s.cfg.commandOf (multiCommand b) = some c) :
    fetch s = .settled (report .incomplete
      { beginStep ⟨.byte b, hold⟩ rest s with asm := Assembler.collecting [b] c.size }) := by
  simp only [fetch_byte h, takeByte, beginStep_asm, hp, takeHeader, hk, beginStep_cfg, hc]

/-- An undefined Multi header in IDLE is dispatched by itself. -/
theorem fetch_undefined {s : State} {b : Byte} {hold : Bool} {rest : List StepInput}
    (h : s.input = ⟨.byte b, hold⟩ :: rest) (hp : s.asm.phase = .idle) (hk : kindOf b = .multi)
    (hc : s.cfg.commandOf (multiCommand b) = none) :
    fetch s = dispatchFrame [b] (beginStep ⟨.byte b, hold⟩ rest s) := by
  simp only [fetch_byte h, takeByte, beginStep_asm, hp, takeHeader, hk, beginStep_cfg, hc]

/-- The last argument byte of a frame completes it. -/
theorem fetch_last_argument {s : State} {b : Byte} {hold : Bool} {rest : List StepInput}
    (h : s.input = ⟨.byte b, hold⟩ :: rest) (hp : s.asm.phase = .collect)
    (hl : (s.asm.buf ++ [b]).length = s.asm.need) :
    fetch s = dispatchFrame (s.asm.buf ++ [b]) (beginStep ⟨.byte b, hold⟩ rest s) := by
  simp only [fetch_byte h, takeByte, beginStep_asm, hp, takeArgument, hl, if_true]

/-- Any other argument byte is collected. -/
theorem fetch_argument {s : State} {b : Byte} {hold : Bool} {rest : List StepInput}
    (h : s.input = ⟨.byte b, hold⟩ :: rest) (hp : s.asm.phase = .collect)
    (hl : (s.asm.buf ++ [b]).length ≠ s.asm.need) :
    fetch s = .settled (report .incomplete
      { beginStep ⟨.byte b, hold⟩ rest s with asm := { s.asm with buf := s.asm.buf ++ [b] } }) := by
  simp only [fetch_byte h, takeByte, beginStep_asm, hp, takeArgument, hl, if_false]

/-- A Single header in HUNT is a whole frame. -/
theorem fetch_candidate {s : State} {b : Byte} {hold : Bool} {rest : List StepInput}
    (h : s.input = ⟨.byte b, hold⟩ :: rest) (hp : s.asm.phase = .hunt) (hk : kindOf b = .single) :
    fetch s = dispatchFrame [b] (beginStep ⟨.byte b, hold⟩ rest s) := by
  simp only [fetch_byte h, takeByte, beginStep_asm, hp, takeCandidate, hk]

/-- Any other byte in HUNT is discarded. -/
theorem fetch_hunted {s : State} {b : Byte} {hold : Bool} {rest : List StepInput}
    (h : s.input = ⟨.byte b, hold⟩ :: rest) (hp : s.asm.phase = .hunt) (hk : kindOf b = .multi) :
    fetch s = .settled (report .incomplete (beginStep ⟨.byte b, hold⟩ rest s)) := by
  simp only [fetch_byte h, takeByte, beginStep_asm, hp, takeCandidate, hk]

theorem decodeFrame_eq_some {p : Params} {frame : List Byte} {i : Instr} :
    decodeFrame p frame = some i ↔ decode p frame = .ok (i, []) := by
  unfold decodeFrame
  constructor
  · intro h
    split at h
    · cases h; assumption
    · cases h
  · intro h
    rw [h]

/-- A frame that decodes as a whole is dispatched. -/
theorem dispatchFrame_of_decode {s : State} {frame : List Byte} {i : Instr} (h : decode s.cfg frame = .ok (i, [])) :
    dispatchFrame frame s = .run i (report (.complete frame) { s with asm := Assembler.idle }) := by
  unfold dispatchFrame
  rw [decodeFrame_eq_some.mpr h]

end Sys2Proof.Machine
end

