-- ==== Sys2Proof/Laws/Ops.lean ====
section
/-! SUPPORT. What each shared operation can do, said once (spec/20_memory.md R51, R64; spec/43_multi_byte_commands.md
R161, R172). -/

namespace Sys2Proof.Machine

open Sys2Proof

/-! ### The registry -/

/-- A mutation of a channel that has a record puts the mutated record in its place. -/
theorem apply_at {s : State} {ch : Nat} {r : ChannelState} (m : ChannelState → ChannelState) (h : s.cs[ch]? = some r) :
    (apply ch m s).cs = s.cs.set ch (m r) := by
  apply List.ext_getElem?
  intro n
  rw [apply_cs, List.getElem?_modify, List.getElem?_set]
  obtain ⟨hlt, hr⟩ := List.getElem?_eq_some_iff.mp h
  by_cases hn : ch = n
  · subst hn; simp [hlt, hr]
  · simp [hn]

/-- A mutation leaves every other channel's record. -/
theorem apply_other {s : State} {ch n : Nat} (m : ChannelState → ChannelState) (h : n ≠ ch) :
    (apply ch m s).cs[n]? = s.cs[n]? := by
  rw [apply_cs, List.getElem?_modify]
  simp [h.symm]

theorem swapRecords_eq {cs : List ChannelState} {a c : Nat} {ra rc : ChannelState} (ha : cs[a]? = some ra)
    (hc : cs[c]? = some rc) : swapRecords a c cs = (cs.set a rc).set c ra := by
  simp only [swapRecords, ha, hc]

@[simp] theorem swapRecords_length (a c : Nat) (cs : List ChannelState) : (swapRecords a c cs).length = cs.length := by
  unfold swapRecords
  split <;> simp

/-- The record of a channel after an exchange: the other's at the two channels, its own elsewhere. -/
theorem swapRecords_get {cs : List ChannelState} {a c : Nat} {ra rc : ChannelState} (ha : cs[a]? = some ra)
    (hc : cs[c]? = some rc) (n : Nat) :
    (swapRecords a c cs)[n]? = if n = c then some ra else if n = a then some rc else cs[n]? := by
  have hla : a < cs.length := (List.getElem?_eq_some_iff.mp ha).1
  have hlc : c < cs.length := (List.getElem?_eq_some_iff.mp hc).1
  rw [swapRecords_eq ha hc, List.getElem?_set, List.getElem?_set]
  simp only [List.length_set, hlc, hla, if_true, eq_comm (a := n)]

/-- The record of a channel after the loop of `RESET`. -/
theorem restorePresets_get (s : State) (n : Nat) :
    (restorePresets s).cs[n]? = s.cs[n]?.map fun r => withSettings (presetOf s.cfg.preset n r.src) r := by
  simp [restorePresets]

/-! ### Channel checks and conditional mutations -/

theorem channelOk_iff {p : Params} {ch : BitVec 2} : channelOk p ch = true ↔ ch.toNat < p.nch := by simp [channelOk]

theorem onChannel_of_lt {s : State} {ch : BitVec 2} (h : ch.toNat < s.cfg.nch) (c : MultiCmd)
    (act : Byte → Nat → State → State) : onChannel c ch act s = act (s.cfg.multiHeader c ch) ch.toNat s := by
  simp [onChannel, channelOk, h]

theorem onChannel_of_ge {s : State} {ch : BitVec 2} (h : s.cfg.nch ≤ ch.toNat) (c : MultiCmd)
    (act : Byte → Nat → State → State) :
    onChannel c ch act s = raise (.invalidChannel (s.cfg.multiHeader c ch) ch.toNat) s := by
  have : ¬ ch.toNat < s.cfg.nch := by omega
  simp [onChannel, channelOk, this]

/-- An accepted mutation of a channel that has a record, as one update. -/
theorem mutateAndEmit_at {s : State} {ch : Nat} {r : ChannelState} (m : ChannelState → ChannelState) (e : Event)
    (h : s.cs[ch]? = some r) :
    mutateAndEmit ch m e s = { s with cs := s.cs.set ch (m r), event := some e } := by
  show { apply ch m s with event := some e } = _
  rw [← apply_at m h]
  rfl

theorem mutateIf_true (header : Byte) (ch : Nat) (w : RejectReason) (m : ChannelState → ChannelState) (e : Event)
    (s : State) : mutateIf true header ch w m e s = mutateAndEmit ch m e s := rfl

theorem mutateIf_false (header : Byte) (ch : Nat) (w : RejectReason) (m : ChannelState → ChannelState) (e : Event)
    (s : State) : mutateIf false header ch w m e s = raise (.rejectedMutation header ch w) s := rfl

end Sys2Proof.Machine
end

