-- ==== Sys2Proof/Laws/Exec.lean ====
section
/-! SUPPORT. What a dispatch can do, said once: the shapes of the next state of every command. -/

namespace Sys2Proof.Machine

open Sys2Proof

/-- The shapes of a command's next state. -/
inductive Effect (s : State) : State → Prop where
  /-- A device event: nothing else changes. -/
  | device (e : Event) (h : ∀ d, e ≠ .diag d) : Effect s (emit e s)
  /-- A diagnostic: nothing else changes. -/
  | error (d : Diag) : Effect s (raise d s)
  /-- One mutation of one channel, with an event that is no diagnostic. -/
  | mutation (ch : Nat) (m : ChannelState → ChannelState) (e : Event) (h : ∀ d, e ≠ .diag d) :
      Effect s (mutateAndEmit ch m e s)
  /-- The loop of `RESET`. -/
  | presets : Effect s (emit .devResetAllSources (restorePresets s))
  /-- An exchange of two records. -/
  | exchanged (a c : Nat) : Effect s (emit (.srcSwap a c) (exchange a c s))
  /-- An undefined header discarded. -/
  | discarded (h : Byte) : Effect s (discardHeader h s)

theorem mutateIf_effect (ok : Bool) (header : Byte) (ch : Nat) (w : RejectReason) (m : ChannelState → ChannelState)
    (e : Event) (s : State) (h : ∀ d, e ≠ .diag d) : Effect s (mutateIf ok header ch w m e s) := by
  cases ok
  · exact .error _
  · exact .mutation ch m e h

theorem onChannel_effect (c : MultiCmd) (ch : BitVec 2) (act : Byte → Nat → State → State) (s : State)
    (h : ∀ b n, Effect s (act b n s)) : Effect s (onChannel c ch act s) := by
  unfold onChannel
  split
  · exact h _ _
  · exact .error _

/-- Every command completes, in one of the shapes of `Effect`. -/
theorem exec_effect (i : Instr) (s : State) : ∃ t, exec i s = .next t ∧ Effect s t := by
  cases i with
  | start v => exact ⟨_, rfl, .device _ nofun⟩
  | stop v => exact ⟨_, rfl, .device _ nofun⟩
  | reset v => exact ⟨_, rfl, .presets⟩
  | swap v =>
    refine ⟨_, rfl, ?_⟩
    split
    · exact .error _
    · exact .exchanged _ _
  | invalid4 v => exact ⟨_, rfl, .error _⟩
  | invalid5 v => exact ⟨_, rfl, .error _⟩
  | invalid6 v => exact ⟨_, rfl, .error _⟩
  | ident v => exact ⟨_, rfl, .device _ nofun⟩
  | csl ch src => exact ⟨_, rfl, onChannel_effect _ _ _ _ fun _ _ => .mutation _ _ _ nofun⟩
  | cso ch src => exact ⟨_, rfl, onChannel_effect _ _ _ _ fun _ _ => .mutation _ _ _ nofun⟩
  | csn ch src shot => exact ⟨_, rfl, onChannel_effect _ _ _ _ fun _ _ => .mutation _ _ _ nofun⟩
  | ctp ch v => exact ⟨_, rfl, onChannel_effect _ _ _ _ fun _ _ => mutateIf_effect _ _ _ _ _ _ _ nofun⟩
  | tf ch f => exact ⟨_, rfl, onChannel_effect _ _ _ _ fun _ _ => mutateIf_effect _ _ _ _ _ _ _ nofun⟩
  | voff ch v => exact ⟨_, rfl, onChannel_effect _ _ _ _ fun _ _ => mutateIf_effect _ _ _ _ _ _ _ nofun⟩
  | son ch v => exact ⟨_, rfl, onChannel_effect _ _ _ _ fun _ _ => .mutation _ _ _ nofun⟩
  | soff ch v => exact ⟨_, rfl, onChannel_effect _ _ _ _ fun _ _ => .mutation _ _ _ nofun⟩
  | undefinedLow ch code => exact ⟨_, rfl, .discarded _⟩
  | undefinedHigh ch code => exact ⟨_, rfl, .discarded _⟩

/-- The shape of a command's next state. -/
theorem effect_of_exec {i : Instr} {s t : State} (h : exec i s = .next t) : Effect s t := by
  obtain ⟨u, hu, he⟩ := exec_effect i s
  rw [hu] at h
  cases h
  exact he

/-! ### What no command changes, and the number of records -/

theorem effect_keeps {s t : State} (h : Effect s t) :
    t.cfg = s.cfg ∧ t.input = s.input ∧ t.holdConst = s.holdConst ∧ t.cs.length = s.cs.length := by
  cases h <;> refine ⟨rfl, rfl, rfl, ?_⟩ <;> simp [mutateAndEmit, discardHeader]

/-- The assembler after a command: untouched, or resynchronized after an undefined header, with the result that goes
with it. -/
theorem effect_asm {s t : State} (h : Effect s t) :
    (t.asm = s.asm ∧ t.result = s.result) ∨
      (t.asm = resyncTarget s.cfg.resync ∧ t.result = some .errorUnknownCommand) := by
  cases h <;> first | exact .inl ⟨rfl, rfl⟩ | exact .inr ⟨rfl, rfl⟩

/-- Every command reports exactly one event, and where that is a diagnostic the registry is untouched. -/
theorem effect_event {s t : State} (h : Effect s t) :
    ∃ e, t.event = some e ∧ ((∀ d, e ≠ .diag d) ∨ t.cs = s.cs) := by
  cases h with
  | device e h => exact ⟨e, rfl, .inl h⟩
  | error d => exact ⟨_, rfl, .inr rfl⟩
  | mutation ch m e h => exact ⟨e, rfl, .inl h⟩
  | presets => exact ⟨_, rfl, .inl nofun⟩
  | exchanged a c => exact ⟨_, rfl, .inl nofun⟩
  | discarded h => exact ⟨_, rfl, .inr rfl⟩

end Sys2Proof.Machine
end

