-- ==== Sys2Proof/Laws/PerInstr.lean ====
section
/-! SUPPORT. Per-instruction families. FrameSize: the encoding of a well-formed instruction has exactly the length its
header asks for (spec/30_encoding.md R77, R78, R85). -/

namespace Sys2Proof.Laws.FrameSize

open Sys2Proof

/-- The length of the frame of an instruction is the length its header determines. -/
def Statement (i : Instr) : Prop :=
  ∀ p : Params, p.codesOk = true → i.wf p = true → (encode p i).length = frameLength p (header p i)

theorem of_single {i : Instr} (v : BitVec 4) (c : BitVec 3) (hh : ∀ p : Params, header p i = encSingle v c)
    (ha : ∀ e, argBytes e i = []) : Statement i := by
  intro p _ _
  simp [encode, ha, hh, frameLength]

theorem of_multi {i : Instr} (c : MultiCmd) (ch : BitVec 2) (hh : ∀ p : Params, header p i = p.multiHeader c ch)
    (ha : ∀ e, (argBytes e i).length + 1 = c.size) : Statement i := by
  intro p hp _
  simp only [encode, List.length_cons, ha, hh, frameLength, Params.multiHeader, kindOf_encMultiHeader,
    multiCommand_encMultiHeader, commandOf_codeOf hp]

theorem start (v : BitVec 4) : Statement (.start v) := of_single v 0 (fun _ => rfl) fun _ => rfl
theorem stop (v : BitVec 4) : Statement (.stop v) := of_single v 1 (fun _ => rfl) fun _ => rfl
theorem reset (v : BitVec 4) : Statement (.reset v) := of_single v 2 (fun _ => rfl) fun _ => rfl
theorem swap (v : BitVec 4) : Statement (.swap v) := of_single v 3 (fun _ => rfl) fun _ => rfl
theorem invalid4 (v : BitVec 4) : Statement (.invalid4 v) := of_single v 4 (fun _ => rfl) fun _ => rfl
theorem invalid5 (v : BitVec 4) : Statement (.invalid5 v) := of_single v 5 (fun _ => rfl) fun _ => rfl
theorem invalid6 (v : BitVec 4) : Statement (.invalid6 v) := of_single v 6 (fun _ => rfl) fun _ => rfl
theorem ident (v : BitVec 4) : Statement (.ident v) := of_single v 7 (fun _ => rfl) fun _ => rfl

theorem csl (ch : BitVec 2) (src : Byte) : Statement (.csl ch src) :=
  of_multi .changeSourceL ch (fun _ => rfl) fun _ => rfl
theorem cso (ch : BitVec 2) (src : Byte) : Statement (.cso ch src) :=
  of_multi .changeSourceO ch (fun _ => rfl) fun _ => rfl
theorem csn (ch : BitVec 2) (src shot : Byte) : Statement (.csn ch src shot) :=
  of_multi .changeSourceN ch (fun _ => rfl) fun _ => rfl
theorem ctp (ch : BitVec 2) (v : Word32) : Statement (.ctp ch v) :=
  of_multi .changeTimePeriod ch (fun _ => rfl) fun e => by simp [argBytes, MultiCmd.size]
theorem tf (ch : BitVec 2) (f : Word32) : Statement (.tf ch f) :=
  of_multi .timeFactor ch (fun _ => rfl) fun e => by simp [argBytes, MultiCmd.size]
theorem voff (ch : BitVec 2) (v : Word16) : Statement (.voff ch v) :=
  of_multi .voltageOffset ch (fun _ => rfl) fun e => by simp [argBytes, MultiCmd.size]
theorem son (ch : BitVec 2) (v : Word32) : Statement (.son ch v) :=
  of_multi .squareOnTime ch (fun _ => rfl) fun e => by simp [argBytes, MultiCmd.size]
theorem soff (ch : BitVec 2) (v : Word32) : Statement (.soff ch v) :=
  of_multi .squareOffTime ch (fun _ => rfl) fun e => by simp [argBytes, MultiCmd.size]

theorem undefinedLow (ch : BitVec 2) (code : BitVec 4) : Statement (.undefinedLow ch code) := by
  intro p _ hw
  have : p.commandOf (0#1 ++ code) = none := undefinedCode_iff.mp hw
  simp [encode, argBytes, header, frameLength, this]

theorem undefinedHigh (ch : BitVec 2) (code : BitVec 4) : Statement (.undefinedHigh ch code) := by
  intro p _ hw
  have : p.commandOf (1#1 ++ code) = none := undefinedCode_iff.mp hw
  simp [encode, argBytes, header, frameLength, this]

end Sys2Proof.Laws.FrameSize
end

