-- ==== Sys2Proof/Laws/Step.lean ====
section
/-! SUPPORT. What a step can do, said once (spec/40_classifier_assembler.md R113). -/

namespace Sys2Proof.Machine

open Sys2Proof

/-- With no token the step leaves the block and clears the outputs (log entry 7). -/
theorem step_none {s : State} (h : s.input = []) : step s = .next { s with result := none, event := none } :=
  step_settled (fetch_none h)

/-- If a step answers a next state, then there was no token, or it took the oldest token and the assembler moved on or
waited, or it abandoned a partial frame, or it completed a frame and ran the command of the frame. -/
theorem step_cases {s t : State} (h : step s = .next t) :
    (s.input = [] ∧ t = { s with result := none, event := none }) ∨
    ∃ x rest, s.input = x :: rest ∧
      ((∃ a r, (r = .incomplete ∨ r = .noOp) ∧ t = report r { beginStep x rest s with asm := a }) ∨
       (∃ hd n, t = report .abandoned (resync (raise (.stalledFrame hd n) (beginStep x rest s)))) ∨
       ∃ frame i, decodeFrame s.cfg frame = some i ∧ exec i (readyState frame x rest s) = .next t) := by
  rcases hi : s.input with _ | ⟨x, rest⟩
  · left
    rw [step_none hi] at h
    cases h
    exact ⟨rfl, by rw [hi]⟩
  · right
    refine ⟨x, rest, rfl, ?_⟩
    have ht := fetch_taken hi
    generalize hf : fetch s = f at ht
    cases ht with
    | waiting a r hr =>
      rw [step_settled hf] at h
      cases h
      exact .inl ⟨a, r, hr, rfl⟩
    | abandoned hd n =>
      rw [step_settled hf] at h
      cases h
      exact .inr (.inl ⟨hd, n, rfl⟩)
    | complete frame i hd =>
      rw [step_run hf] at h
      exact .inr (.inr ⟨frame, i, hd, h⟩)
    | broken =>
      rw [step_broken hf] at h
      cases h

/-- A step that runs the command of a complete frame, as one equation. -/
theorem step_dispatch {s : State} {frame : List Byte} {i : Instr} {x : StepInput} {rest : List StepInput}
    (hf : fetch s = dispatchFrame frame (beginStep x rest s)) (hd : decode s.cfg frame = .ok (i, [])) :
    step s = exec i (readyState frame x rest s) :=
  step_run (hf.trans (dispatchFrame_of_decode hd))

end Sys2Proof.Machine
end

