-- ==== Sys2Proof/Tests/Slice0.lean ====
section
/-! SUPPORT. Tests on small states, each of one step or one operation, with results from spec/95_test_vectors.md; the
words of the encodings written out bit by bit; ill-formed terms for each check; and, for every statement with
hypotheses, a concrete state and operands that meet them. -/

namespace Sys2Proof.Tests

open Sys2Proof Sys2Proof.Machine

/-! ### The states of the tests (spec/95_test_vectors.md, "Test assumptions") -/

/-- The record `Z` of the test vectors. -/
def z : ChannelState := ⟨0, .loopback, 0, 0, 0x3F800000, 0, 0, 0⟩

/-- Settings for `PRESET` in the tests. -/
def preset100 : SourceSettings := ⟨100, 0x40000000, 7, 8, 9⟩

/-- The tests' parameters: `SWAP_MAP(0) = (0, 1)`, `SWAP_MAP(1) = (2, 2)`, `SWAP_MAP(3) = (2, 3)`, no other pair. -/
def params : Params where
  nch := 4
  multiCode := Config.multiCode
  argEndian := .le
  resync := .restart
  swapMap := [(0, 0, 1), (1, 2, 2), (3, 2, 3)]
  defaultState := [z, z, z, z]
  preset := ⟨[⟨0, 5, preset100⟩], ⟨1, 2, 3, 4, 5⟩⟩

/-- A block with these parameters right after reset, with a registry, an assembler and tokens. -/
def at_ (p : Params) (cs : List ChannelState) (asm : Assembler) (input : List StepInput) : State :=
  { State.boot p with cs := cs, asm := asm, input := input, holdConst := true }

/-- Four records that differ. -/
def four : List ChannelState := [{ z with src := 5, mode := .nShot, shot := 3, period := 7 }, { z with src := 1 },
  { z with src := 2 }, { z with src := 3, shot := 9 }]

/-- The idle test state with these tokens to come. -/
def idleWith (input : List StepInput) : State := at_ params four Assembler.idle input

/-- One byte as a token, with the answer `true`. -/
def tok (b : Byte) : StepInput := ⟨.byte b, true⟩

/-- The test state with a frame in progress. -/
def collecting (buf : List Byte) (need : Nat) (input : List StepInput) : State :=
  at_ params four (Assembler.collecting buf need) input

/-- The test state hunting, under `HuntSingle`. -/
def hunting (input : List StepInput) : State :=
  at_ { params with resync := .huntSingle } four Assembler.hunt input

/-- The state an outcome holds. -/
def after : Host.Outcome State Fault Refusal → Option State
  | .next t => some t
  | .fault _ => none
  | .refused _ => none

/-- The event and the record of a channel after one step on the test state. -/
def seen (ch : Nat) (o : Host.Outcome State Fault Refusal) : Option (Option Event × Option ChannelState) :=
  (after o).map fun t => (t.event, t.cs[ch]?)

/-! ### Well-formedness smoke: an ill-formed term for each check -/

theorem smoke_wf_params : params.wf = true := by decide
theorem smoke_nch_zero : ({ params with nch := 0, defaultState := [] } : Params).nchOk = false := by decide
theorem smoke_nch_five : ({ params with nch := 5 } : Params).wf = false := by decide
theorem smoke_codes_repeat : ({ params with multiCode := { Config.multiCode with timeFactor := 0 } } : Params).codesOk = false := by
  decide
theorem smoke_swap_outside : ({ params with nch := 3 } : Params).swapOk = false := by decide
theorem smoke_defaults_short : ({ params with defaultState := [z] } : Params).defaultsOk = false := by decide
theorem smoke_wf_undefined : (Instr.undefinedLow 0 8).wf params = true := by decide
theorem smoke_defined_low : (Instr.undefinedLow 0 7).wf params = false := by decide
theorem smoke_defined_high :
    (Instr.undefinedHigh 0 15).wf { params with multiCode := { Config.multiCode with timeFactor := 31 } } = false := by
  decide

/-! ### Words written out from the encodings of spec/30_encoding.md R71 to R77 -/

theorem word_start : decodeTableWord 8 0b11111000 = some (.start 15) := by decide
theorem word_stop : decodeTableWord 8 0b11111001 = some (.stop 15) := by decide
theorem word_reset : decodeTableWord 8 0b10000010 = some (.reset 0) := by decide
theorem word_swap : decodeTableWord 8 0b10011011 = some (.swap 3) := by decide
theorem word_invalid4 : decodeTableWord 8 0b11000100 = some (.invalid4 8) := by decide
theorem word_invalid5 : decodeTableWord 8 0b10000101 = some (.invalid5 0) := by decide
theorem word_invalid6 : decodeTableWord 8 0b11111110 = some (.invalid6 15) := by decide
theorem word_ident : decodeTableWord 8 0b10001111 = some (.ident 1) := by decide
theorem word_csl : decodeTableWord 16 0b00000101_01000000 = some (.csl 2 5) := by decide
theorem word_cso : decodeTableWord 16 0b00010000_00100001 = some (.cso 1 16) := by decide
theorem word_csn : decodeTableWord 24 0b00000011_00000111_01100010 = some (.csn 3 7 3) := by decide
theorem word_ctp : decodeTableWord 40 0b00000000_00000000_00000011_11101000_00000011 = some (.ctp 0 1000) := by decide
theorem word_tf : decodeTableWord 40 0b01000000_00100000_00000000_00000000_00100100 = some (.tf 1 0x40200000) := by decide
theorem word_voff : decodeTableWord 24 0b00010010_00110100_01000101 = some (.voff 2 0x1234) := by decide
theorem word_son : decodeTableWord 40 0b00000000_00000000_00000001_11110100_01100110 = some (.son 3 500) := by decide
theorem word_soff : decodeTableWord 40 0b00010010_00110100_01010110_01111000_00000111 = some (.soff 0 0x12345678) := by
  decide
theorem word_undefinedLow : decodeTableWord 8 0b00001000 = some (.undefinedLow 0 8) := by decide
theorem word_undefinedHigh : decodeTableWord 8 0b01111111 = some (.undefinedHigh 3 15) := by decide

/-- A byte above `nbits` is zero (the interface's convention). -/
theorem word_short : decodeTableWord 8 0xFF40 = some (.csl 2 0) := by decide

/-- E3 and M20: the same bytes under the other byte order. -/
theorem test_decode_be :
    decode { params with argEndian := .be } [0x07, 0x78, 0x56, 0x34, 0x12] = .ok (.soff 0 0x78563412, []) := by decide

/-- A frame with a byte missing is unfinished, and no byte is no frame. -/
theorem test_decode_unfinished : decode params [0x23, 0x01] = .error (.unfinished 5) := by decide
theorem test_decode_none : decode params [] = .error .noByte := by decide

/-- E3: the encoder gives the bytes of the vectors. -/
theorem test_encode_csn : encode params (.csn 3 7 3) = [0x62, 0x07, 0x03] := by decide
theorem test_encode_tf : encode params (.tf 1 0x7FC00000) = [0x24, 0x00, 0x00, 0xC0, 0x7F] := by decide

/-! ### Commands, one each (spec/95_test_vectors.md V-SB, V-MB) -/

/-- S2. -/
theorem test_start : seen 0 (exec (.start 15) (idleWith [])) = some (some .devStart, four[0]?) := by decide
/-- S3. -/
theorem test_stop : seen 0 (exec (.stop 0) (idleWith [])) = some (some .devStop, four[0]?) := by decide
/-- R143's example: the listed preset of channel 0 and source 5; `src`, `mode` and `shot` stay. -/
theorem test_reset : seen 0 (exec (.reset 0) (idleWith [])) =
    some (some .devResetAllSources, some ⟨5, .nShot, 3, 100, 0x40000000, 7, 8, 9⟩) := by decide
/-- S4 on another channel. -/
theorem test_reset_other : seen 3 (exec (.reset 0) (idleWith [])) =
    some (some .devResetAllSources, some ⟨3, .loopback, 9, 1, 2, 3, 4, 5⟩) := by decide
/-- S6. -/
theorem test_swap : (after (exec (.swap 0) (idleWith []))).map (fun t => (t.cs, t.event)) =
    some ([{ z with src := 1 }, { z with src := 5, mode := .nShot, shot := 3, period := 7 }, { z with src := 2 },
      { z with src := 3, shot := 9 }], some (.srcSwap 0 1)) := by decide
/-- S9. -/
theorem test_swap_none : seen 0 (exec (.swap 2) (idleWith [])) =
    some (some (.diag (.invalidChannel 0x93 2)), four[0]?) := by decide
/-- S11. -/
theorem test_ident : seen 0 (exec (.ident 0) (idleWith [])) = some (some .devIdentity, four[0]?) := by decide
/-- S12, S13, S14. -/
theorem test_invalid4 : seen 0 (exec (.invalid4 0) (idleWith [])) =
    some (some (.diag (.unknownCommand 0x84)), four[0]?) := by decide
theorem test_invalid5 : seen 0 (exec (.invalid5 0) (idleWith [])) =
    some (some (.diag (.unknownCommand 0x85)), four[0]?) := by decide
theorem test_invalid6 : seen 0 (exec (.invalid6 15) (idleWith [])) =
    some (some (.diag (.unknownCommand 0xFE)), four[0]?) := by decide
/-- M2. -/
theorem test_csl : seen 2 (exec (.csl 2 255) (idleWith [])) =
    some (some (.srcSetMode 2 255 .loopback none), some { z with src := 255 }) := by decide
/-- M6: the shot count is kept. -/
theorem test_cso : seen 3 (exec (.cso 3 9) (idleWith [])) =
    some (some (.srcSetMode 3 9 .oneShot none), some { z with src := 9, mode := .oneShot, shot := 9 }) := by decide
/-- M5: a shot count of 0 is accepted. -/
theorem test_csn : seen 3 (exec (.csn 3 7 0) (idleWith [])) =
    some (some (.srcSetMode 3 7 .nShot (some 0)), some { z with src := 7, mode := .nShot, shot := 0 }) := by decide
/-- M10. -/
theorem test_ctp : seen 3 (exec (.ctp 3 0xFFFFFFFF) (idleWith [])) =
    some (some (.srcSetTimePeriod 3 0xFFFFFFFF), some { z with src := 3, shot := 9, period := 0xFFFFFFFF }) := by decide
/-- M8. -/
theorem test_ctp_rejected : seen 0 (exec (.ctp 0 1000) { idleWith [] with holdConst := false }) =
    some (some (.diag (.rejectedMutation 0x03 0 .holdTimeNotConstant)), four[0]?) := by decide
/-- V-TF: the greatest finite value is accepted, infinity is not. -/
theorem test_tf : seen 1 (exec (.tf 1 0x7F7FFFFF) (idleWith [])) =
    some (some (.srcSetTimeFactor 1 0x7F7FFFFF), some { z with src := 1, factor := 0x7F7FFFFF }) := by decide
theorem test_tf_rejected : seen 1 (exec (.tf 1 0x7F800000) (idleWith [])) =
    some (some (.diag (.rejectedMutation 0x24 1 .factorOutOfDomain)), four[1]?) := by decide
/-- M15, M14. -/
theorem test_voff : seen 2 (exec (.voff 2 1) (idleWith [])) =
    some (some (.srcSetVoltageOffset 2 1), some { z with src := 2, voff := 1 }) := by decide
theorem test_voff_rejected : seen 2 (exec (.voff 2 0) (idleWith [])) =
    some (some (.diag (.rejectedMutation 0x45 2 .offsetOutOfDomain)), four[2]?) := by decide
/-- M17. -/
theorem test_son : seen 3 (exec (.son 3 500) (idleWith [])) =
    some (some (.srcSetSquareOnTime 3 500), some { z with src := 3, shot := 9, son := 500 }) := by decide
/-- M21. -/
theorem test_soff : seen 1 (exec (.soff 1 0xFFFFFFFF) (idleWith [])) =
    some (some (.srcSetSquareOffTime 1 0xFFFFFFFF), some { z with src := 1, soff := 0xFFFFFFFF }) := by decide
/-- A3 under `HuntSingle`. -/
theorem test_undefined_low :
    (after (exec (.undefinedLow 0 8) { hunting [] with asm := Assembler.idle })).map (fun t => (t.asm, t.event)) =
      some (Assembler.hunt, some (.diag (.unknownCommand 0x08))) := by decide
/-- A4 under `Restart`. -/
theorem test_undefined_high : (after (exec (.undefinedHigh 3 15) (idleWith []))).map (fun t => (t.asm, t.event, t.result)) =
    some (Assembler.idle, some (.diag (.unknownCommand 0x7F)), some .errorUnknownCommand) := by decide

/-- M23: with three channels, the channel check comes before the hold time. -/
def threeChannels : State :=
  { at_ { params with nch := 3, swapMap := [], defaultState := [z, z, z] } [z, z, z] Assembler.idle [] with
    holdConst := false }
theorem test_channel_outside : seen 3 (exec (.ctp 3 1000) threeChannels) =
    some (some (.diag (.invalidChannel 0x63 3)), none) := by decide

/-! ### The step (spec/95_test_vectors.md V-AS) -/

/-- The assembler, the result and the event after one step. -/
def stepSeen (s : State) : Option (Assembler × Option StepResult × Option Event) :=
  (after (step s)).map fun t => (t.asm, t.result, t.event)

/-- A1. -/
theorem test_step_single : stepSeen (idleWith [tok 0x80]) =
    some (Assembler.idle, some (.complete [0x80]), some .devStart) := by decide
/-- A2. -/
theorem test_step_header : stepSeen (idleWith [tok 0x23]) =
    some (Assembler.collecting [0x23] 5, some .incomplete, none) := by decide
/-- A3. -/
theorem test_step_undefined : stepSeen (idleWith [tok 0x08]) =
    some (Assembler.idle, some .errorUnknownCommand, some (.diag (.unknownCommand 0x08))) := by decide
/-- A5: an argument byte with bit 7 set is data. -/
theorem test_step_last : stepSeen (collecting [0x40] 2 [tok 0xFF]) =
    some (Assembler.idle, some (.complete [0x40, 0xFF]), some (.srcSetMode 2 255 .loopback none)) := by decide
/-- A6. -/
theorem test_step_argument : stepSeen (collecting [0x23] 5 [tok 0x81]) =
    some (Assembler.collecting [0x23, 0x81] 5, some .incomplete, none) := by decide
/-- A8. -/
theorem test_step_abandon : stepSeen (collecting [0x63, 0, 0, 0] 5 [⟨.abandon, true⟩]) =
    some (Assembler.idle, some .abandoned, some (.diag (.stalledFrame 0x63 4))) := by decide
/-- A10, A12, A13. -/
theorem test_step_hunt_abandon : stepSeen (hunting [⟨.abandon, true⟩]) = some (Assembler.hunt, some .noOp, none) := by
  decide
theorem test_step_hunt_discard : stepSeen (hunting [tok 0x7F]) = some (Assembler.hunt, some .incomplete, none) := by decide
theorem test_step_hunt_single : stepSeen (hunting [tok 0x84]) =
    some (Assembler.idle, some (.complete [0x84]), some (.diag (.unknownCommand 0x84))) := by decide
/-- No token: nothing happens. -/
theorem test_step_no_token : stepSeen (collecting [0x23] 5 []) = some (Assembler.collecting [0x23] 5, none, none) := by decide
/-- A state that breaks R22 stops. -/
theorem test_step_malformed : step (collecting [0x80] 2 [tok 0]) = .fault .malformedAssembler := rfl
/-- R52: the read port. -/
theorem test_read_port : getChannel 1 (idleWith []) = .ok { z with src := 1 } ∧
    getChannel 4 (idleWith []) = .error (.readOutsideRegistry 4) := ⟨rfl, rfl⟩
/-- R208: a byte and an abandon signal together. -/
theorem test_offer : tokensOf (some 5) true = [.abandon, .byte 5] := by decide
/-- The interface: a placed word is the next step's, in the middle of a hunt as well. -/
theorem test_placed : stepSeen ((hunting []).withFetchWord 24 0x123445) =
    some (Assembler.idle, some (.complete [0x45, 0x34, 0x12]), some (.srcSetVoltageOffset 2 0x1234)) := by decide
/-- The interface: after reset, with every OPEN parameter free. -/
theorem test_placed_reset : (after (step (State.reset.withFetchWord 16 0x0540))).map (fun t => t.event) =
    some (some (.srcSetMode 2 5 .loopback none)) := rfl

/-! ### Witnesses: states and operands that meet the hypotheses of the statements -/

/-- An idle, a collecting and a hunting state meet the invariant. -/
theorem legal_idle (input : List StepInput) : Legal (idleWith input) :=
  ⟨rfl, ⟨fun _ => ⟨rfl, rfl, rfl⟩, nofun, nofun⟩, rfl⟩
theorem legal_collecting (input : List StepInput) : Legal (collecting [0x23, 1] 5 input) :=
  ⟨rfl, ⟨nofun, nofun, fun _ => ⟨0x23, [1], .changeTimePeriod, rfl, rfl, rfl, rfl, (by decide : 2 < 5), rfl⟩⟩, rfl⟩
theorem legal_hunting (input : List StepInput) : Legal (hunting input) :=
  ⟨rfl, ⟨nofun, fun _ => ⟨rfl, rfl, rfl, rfl⟩, nofun⟩, rfl⟩

theorem witness_HeaderFieldsFollowTheFormulas : (0xFF : Byte).getLsbD 7 = true ∧ (0x00 : Byte).getLsbD 7 = false := by
  decide
theorem witness_HeaderFieldsReencode : (0x9B : Byte).getLsbD 7 = true ∧ (0x66 : Byte).getLsbD 7 = false := by decide
theorem witness_ArgumentsFollowTheSchema : params.codesOk = true ∧ [(1 : Byte), 2, 3].length + 1 < MultiCmd.timeFactor.size := by
  decide
theorem witness_MultiFrameSizes : params.codesOk = true ∧ params.undefinedCode 8 = true := by decide
theorem witness_FrameLengthFromTheHeaderAlone :
    frameLength params 0x23 ≤ [(1 : Byte), 2, 3, 4].length + 1 ∧ [(1 : Byte), 2, 3].length + 1 < frameLength params 0x23 := by
  decide
theorem witness_DecodeUndoesEncode : params.codesOk = true ∧ (Instr.undefinedHigh 3 15).wf params = true := by decide
theorem witness_EncodeUndoesDecode : decode params [0x45, 0, 0, 9] = .ok (.voff 2 0, [9]) := by decide
theorem witness_ResetValues : 3 < params.nch := by decide
theorem witness_ConfigurationIsConstant : ∃ t, step (idleWith [tok 0x82]) = .next t := ⟨_, rfl⟩
theorem witness_ResetMeetsTheInvariant : params.wf = true := by decide
theorem witness_StepKeepsTheInvariant : Legal (collecting [0x23, 1] 5 [tok 0]) ∧
    ∃ t, step (collecting [0x23, 1] 5 [tok 0]) = .next t := ⟨legal_collecting _, _, rfl⟩
theorem witness_NoStepStops : Legal (hunting [tok 0x84]) := legal_hunting _

/-- A frame completed in each of the three phases. -/
theorem witness_StepRunsTheDecodedInstruction :
    ((idleWith [tok 0x08]).input = [tok 0x08] ∧ (idleWith [tok 0x08]).asm.phase = .idle ∧
      decode params [0x08] = .ok (.undefinedLow 0 8, [])) ∧
    ((hunting [tok 0xFF]).asm.phase = .hunt ∧ (0xFF : Byte).getLsbD 7 = true ∧
      decode (hunting []).cfg [0xFF] = .ok (.ident 15, [])) ∧
    ((collecting [0x62, 7] 3 [tok 3]).asm.phase = .collect ∧
      (collecting [0x62, 7] 3 [tok 3]).asm.buf ++ [3] = [0x62, 7, 3] ∧
      [(0x62 : Byte), 7, 3].length = (collecting [0x62, 7] 3 [tok 3]).asm.need ∧
      decode params [0x62, 7, 3] = .ok (.csn 3 7 3, [])) := by decide
theorem witness_SingleHeaderCompletesAtOnce : (idleWith [tok 0x80, tok 0x40]).input = tok 0x80 :: [tok 0x40] ∧
    (idleWith [tok 0x80, tok 0x40]).asm = ⟨.idle, [], 0, none⟩ ∧ (0x80 : Byte).getLsbD 7 = true := by decide
theorem witness_DefinedMultiHeaderStartsAFrame : (idleWith [tok 0x67]).input = [tok 0x67] ∧
    (idleWith [tok 0x67]).asm.phase = .idle ∧ (0x67 : Byte).getLsbD 7 = false ∧
    (idleWith []).cfg.commandOf (multiCommand 0x67) = some .squareOffTime := by decide
theorem witness_UndefinedMultiHeaderResynchronizes : (idleWith [tok 0x08]).input = [tok 0x08] ∧
    (idleWith [tok 0x08]).asm.phase = .idle ∧ (0x08 : Byte).getLsbD 7 = false ∧
    (idleWith []).cfg.undefinedCode (multiCommand 0x08) = true := by decide
theorem witness_ArgumentBytesAreCollected :
    ((collecting [0x63, 0, 0] 5 [tok 0x81]).input = [tok 0x81] ∧ (collecting [0x63, 0, 0] 5 [tok 0x81]).asm.phase = .collect ∧
      ([(0x63 : Byte), 0, 0] ++ [0x81]).length ≠ 5) ∧
    (([(0x63 : Byte), 0, 0, 0] ++ [0x81]).length = 5 ∧
      decode params ([0x63, 0, 0, 0] ++ [0x81]) = .ok (.ctp 3 0x81000000, [])) := by decide
theorem witness_HuntEndsAtASingleHeader : (hunting [tok 0x7F]).input = [tok 0x7F] ∧ (hunting [tok 0x7F]).asm.phase = .hunt ∧
    (0x7F : Byte).getLsbD 7 = false ∧ (0x80 : Byte).getLsbD 7 = true := by decide
theorem witness_AbandonDiscardsAPartialFrame :
    (collecting [0x23] 5 [⟨.abandon, true⟩]).input = [⟨.abandon, true⟩] ∧
    (collecting [0x23] 5 []).asm.phase = .collect ∧ (collecting [0x23] 5 []).asm.buf = 0x23 :: [] := by decide
theorem witness_AbandonWithNothingInProgress : (idleWith [⟨.abandon, true⟩]).input = [⟨.abandon, true⟩] ∧
    (idleWith []).asm.phase = .idle ∧ (hunting []).asm.phase = .hunt := by decide
theorem witness_NoTokenNoChange : (idleWith []).input = [] := rfl
theorem witness_TokensAreTakenInOrder : (idleWith [tok 0x80, tok 1]).input = tok 0x80 :: [tok 1] ∧
    ∃ t, step (idleWith [tok 0x80, tok 1]) = .next t := ⟨rfl, _, rfl⟩
theorem witness_PartialFramesShowNothing :
    ∃ t, step (idleWith [tok 0x23]) = .next t ∧ t.result = some .incomplete := ⟨_, rfl, rfl⟩
theorem witness_IdleAfterEveryDispatch :
    ∃ t, step (collecting [0x45, 0] 3 [tok 0]) = .next t ∧ t.result = some (.complete [0x45, 0, 0]) := ⟨_, rfl, rfl⟩
theorem witness_DiagnosticsArePrecise : ∃ t, step (collecting [0x45, 0] 3 [tok 0]) = .next t ∧
    t.event = some (.diag (.rejectedMutation 0x45 2 .offsetOutOfDomain)) := ⟨_, rfl, rfl⟩
theorem witness_FramingIgnoresTheRegistry : ∃ t, step (idleWith [tok 0x83]) = .next t := ⟨_, rfl⟩
theorem witness_AbandonIsOrderedBeforeTheByte : (collecting [0x23, 1] 5 []).input = [] ∧
    (collecting [0x23, 1] 5 []).asm.phase = .collect ∧ (collecting [0x23, 1] 5 []).asm.buf = 0x23 :: [1] := by decide
theorem witness_DeliveryTimeHasNoEffect : 1 ≤ (idleWith [tok 0x80, tok 0x81]).input.length ∧
    ∃ t, Host.Core.run Sys2Proof.core 1 (idleWith [tok 0x80, tok 0x81]) = .next t := ⟨by decide, _, rfl⟩

/-- A Multi frame, its steps before the last included, and an undefined header. -/
theorem witness_FrameRunsAtItsLastByte :
    Legal (idleWith (frameTokens params (.ctp 3 0) true ++ [tok 0x80])) ∧
    (idleWith []).asm.phase = .idle ∧ (Instr.ctp 3 0).wf params = true ∧ 4 < (encode params (.ctp 3 0)).length :=
  ⟨legal_idle _, rfl, by decide, by decide⟩

/-- Three frames in a row, one of them an undefined header under `Restart`. -/
theorem witness_FramesRunOnceInOrder :
    Legal (idleWith (streamTokens params [(.csl 0 1, true), (.undefinedLow 1 8, false), (.ident 15, true)])) ∧
    (idleWith []).asm.phase = .idle ∧
    (∀ x ∈ [(Instr.csl 0 1, true), (.undefinedLow 1 8, false), (.ident 15, true)], x.1.wf params = true) ∧
    (∀ x ∈ [(Instr.csl 0 1, true), (.undefinedLow 1 8, false), (.ident 15, true)],
      isUndefined x.1 = true → params.resync = .restart) :=
  ⟨legal_idle _, rfl, by decide, fun _ _ _ => rfl⟩
theorem witness_PlacedFrameRunsNext : decode (idleWith []).cfg (tableBytes 24 0x123445) = .ok (.voff 2 0x1234, [0, 0]) := by
  decide
theorem witness_HeaderClasses : params.codesOk = true ∧ params.commandOf (multiCommand (encMultiHeader 3 7)) = some .squareOffTime ∧
    params.commandOf (multiCommand (encMultiHeader 3 8)) = none := by decide
theorem witness_SwapTwiceRestores : swapPair (idleWith []).cfg.swapMap 3 = some (2, 3) ∧
    swapPair (idleWith []).cfg.swapMap 1 = some (2, 2) := by decide
theorem witness_ResetRestoresThePresets : (idleWith []).cs[3]? = some { z with src := 3, shot := 9 } := by decide

/-- A pair, a pair of one channel with itself, and a value with no pair. -/
theorem witness_SwapExchangesTwoRecords :
    (swapPair (idleWith []).cfg.swapMap 3 = some (2, 3) ∧ (idleWith []).cs[2]? = some { z with src := 2 } ∧
      (idleWith []).cs[3]? = some { z with src := 3, shot := 9 }) ∧
    swapPair (idleWith []).cfg.swapMap 1 = some (2, 2) ∧ swapPair (idleWith []).cfg.swapMap 15 = none := by decide

/-- The highest channel of four, and the lowest channel outside three. -/
theorem highest_channel : ((3 : BitVec 2).toNat < (idleWith []).cfg.nch ∧
    (idleWith []).cs[(3 : BitVec 2).toNat]? = some { z with src := 3, shot := 9 }) ∧
    threeChannels.cfg.nch ≤ (3 : BitVec 2).toNat := by decide
theorem witness_ChangeSourceLSetsLoopback : (3 : BitVec 2).toNat < (idleWith []).cfg.nch ∧
    (idleWith []).cs[(3 : BitVec 2).toNat]? = some { z with src := 3, shot := 9 } ∧
    threeChannels.cfg.nch ≤ (3 : BitVec 2).toNat := by decide
theorem witness_ChangeSourceOSetsOneShot : (0 : BitVec 2).toNat < (idleWith []).cfg.nch ∧
    (idleWith []).cs[(0 : BitVec 2).toNat]? = four[0]? ∧ threeChannels.cfg.nch ≤ (3 : BitVec 2).toNat := by decide
theorem witness_ChangeSourceNSetsNShot : (2 : BitVec 2).toNat < threeChannels.cfg.nch ∧
    threeChannels.cs[(2 : BitVec 2).toNat]? = some z ∧ threeChannels.cfg.nch ≤ (3 : BitVec 2).toNat := by decide
theorem witness_TimePeriodNeedsAConstantHoldTime : ((3 : BitVec 2).toNat < (idleWith []).cfg.nch ∧
    (idleWith []).cs[(3 : BitVec 2).toNat]? = some { z with src := 3, shot := 9 } ∧ (idleWith []).holdConst = true) ∧
    ((2 : BitVec 2).toNat < threeChannels.cfg.nch ∧ threeChannels.holdConst = false) ∧
    threeChannels.cfg.nch ≤ (3 : BitVec 2).toNat := by decide
theorem witness_TimeFactorStoresPositiveFinite : ((3 : BitVec 2).toNat < (idleWith []).cfg.nch ∧
    (idleWith []).cs[(3 : BitVec 2).toNat]? = some { z with src := 3, shot := 9 } ∧
    0x00000001#32 ≤ 0x7F7FFFFF#32 ∧ 0x7F7FFFFF#32 ≤ 0x7F7FFFFF#32) ∧
    0x7F7FFFFF#32 < 0x7F800000#32 ∧ threeChannels.cfg.nch ≤ (3 : BitVec 2).toNat := by decide
theorem witness_VoltageOffsetStoresNonZero : ((3 : BitVec 2).toNat < (idleWith []).cfg.nch ∧
    (idleWith []).cs[(3 : BitVec 2).toNat]? = some { z with src := 3, shot := 9 } ∧ 1#16 ≤ 1#16) ∧
    threeChannels.cfg.nch ≤ (3 : BitVec 2).toNat := by decide
theorem witness_SquareOnTimeIsStored : (3 : BitVec 2).toNat < (idleWith []).cfg.nch ∧
    (idleWith []).cs[(3 : BitVec 2).toNat]? = some { z with src := 3, shot := 9 } ∧
    threeChannels.cfg.nch ≤ (3 : BitVec 2).toNat := by decide
theorem witness_SquareOffTimeIsStored : (0 : BitVec 2).toNat < (idleWith []).cfg.nch ∧
    (idleWith []).cs[(0 : BitVec 2).toNat]? = four[0]? ∧ threeChannels.cfg.nch ≤ (3 : BitVec 2).toNat := by decide
theorem witness_ChannelOutsideTheSetIsReported : threeChannels.cfg.nch ≤ (3 : BitVec 2).toNat ∧
    Instr.csl 3 0 ∈ [Instr.csl 3 0, .cso 3 0] := by decide
theorem witness_MultiCommandsHaveThreeOutcomes : (∃ t, exec (.son 3 0) (idleWith []) = .next t) ∧
    (∃ t, exec (.son 3 0) threeChannels = .next t) ∧ ∃ t, exec (.voff 2 0) (idleWith []) = .next t :=
  ⟨⟨_, rfl⟩, ⟨_, rfl⟩, _, rfl⟩
theorem witness_FieldsHaveTheirWriters : ∃ t r r', exec (.swap 0) (idleWith []) = .next t ∧
    (idleWith []).cs[1]? = some r ∧ t.cs[1]? = some r' := ⟨_, _, _, rfl, rfl, rfl⟩
theorem witness_ReadPortGivesTheRecord : Legal (idleWith []) ∧ 3 < (idleWith []).cfg.nch ∧ (idleWith []).cfg.nch ≤ 4 :=
  ⟨legal_idle _, by decide, by decide⟩

end Sys2Proof.Tests
end

section
/-! PROOFS. The configuration of the machine behind `State.reset` (spec/00_scope.md R7, log entries 2, 3, 7, 8). -/

namespace Sys2Proof.Machine

open Sys2Proof

/-- R76: the device has the default `MULTI_CODE`, which numbers the commands in the source's order. -/
theorem device_codes : MultiCmd.all.map Config.device.codeOf = [0, 1, 2, 3, 4, 5, 6, 7] := rfl

/-- R26, log entry 3: the device's default list holds, at each channel, that channel's free constant. -/
theorem device_defaultState_getElem? (ch : Fin 4) :
    Config.device.defaultState[ch.val]? = some (Config.defaultState ch) := by
  match ch with
  | 0 => rfl
  | 1 => rfl
  | 2 => rfl
  | 3 => rfl

/-- R35: each channel of the reset machine has its `DEFAULT_STATE`. -/
theorem reset_cs_getElem? (ch : Fin 4) : State.reset.cs[ch.val]? = some (Config.defaultState ch) := by
  rw [State.reset, boot_cs, device_defaultState_getElem?]

/-- Settles O13: the parameters are read off `Config.device`, and the rest is what `State.boot` gives. -/
theorem resetConfigurationIsTheDefault : Obligations.ResetConfigurationIsTheDefault := by
  refine ⟨rfl, ?channels, device_codes, ?endian, ?policy, reset_cs_getElem?, ?input, ?result, ?event⟩
  case channels => rfl
  case endian => rfl
  case policy => rfl
  case input => exact boot_input Config.device
  case result => exact boot_result Config.device
  case event => exact boot_event Config.device

end Sys2Proof.Machine
end

section
/-! PROOFS. What the token half of a step leaves in the assembler (spec/10_state.md R22), and from it the invariant of the
machine along every step and at reset (R7, R26, R28, R35). -/

namespace Sys2Proof.Machine

open Sys2Proof

/-! ### The assembler invariant of the registers the model writes -/

/-- R22, first bullet. -/
theorem Assembler.idle_wf (p : Params) : Assembler.idle.Wf p := ⟨fun _ => ⟨rfl, rfl, rfl⟩, nofun, nofun⟩

/-- R22, second bullet: hunting is legal under `HuntSingle`. -/
theorem Assembler.hunt_wf {p : Params} (h : p.resync = .huntSingle) : Assembler.hunt.Wf p :=
  ⟨nofun, fun _ => ⟨rfl, rfl, rfl, h⟩, nofun⟩

/-- R110: both resynchronization policies leave legal registers. -/
theorem resyncTarget_wf (p : Params) : (resyncTarget p.resync).Wf p := by
  cases h : p.resync with
  | restart => exact Assembler.idle_wf p
  | huntSingle => exact Assembler.hunt_wf h

/-- R22, third bullet, for a frame of which the header alone has been received; every frame is longer than that (R77). -/
theorem Assembler.collecting_header_wf {p : Params} {b : Byte} {c : MultiCmd} (hk : kindOf b = .multi)
    (hc : p.commandOf (multiCommand b) = some c) : (Assembler.collecting [b] c.size).Wf p :=
  ⟨nofun, nofun, fun _ => ⟨b, [], c, rfl, hk, hc, rfl, size_ge_two c, rfl⟩⟩

/-- R22, third bullet: an argument byte that does not complete the frame keeps the registers legal. -/
theorem Assembler.Wf.append {p : Params} {a : Assembler} (hw : a.Wf p) (hp : a.phase = .collect) (b : Byte)
    (hl : (a.buf ++ [b]).length ≠ a.need) : ({ a with buf := a.buf ++ [b] } : Assembler).Wf p := by
  obtain ⟨-, -, hcollect⟩ := hw
  obtain ⟨hd, args, c, hbuf, hk, hc, hneed, hlt, hkind⟩ := hcollect hp
  have hlt' : (a.buf ++ [b]).length < a.need := by
    rw [List.length_append, List.length_singleton] at hl ⊢
    omega
  refine ⟨fun hi => ?_, fun hh => ?_, fun _ => ⟨hd, args ++ [b], c, ?_, hk, hc, hneed, hlt', hkind⟩⟩
  · exact absurd (hp.symm.trans hi) nofun
  · exact absurd (hp.symm.trans hh) nofun
  · simp only [hbuf, List.cons_append]

/-! ### The token half of a step -/

/-- The token half of a step leaves the assembler legal: as R22 wants it where the step ends there, and idle where a
command is to run (R103), under the same parameters. -/
def Fetched.LeavesLegal (p : Params) : Fetched → Prop
  | .settled t => t.asm.Wf p
  | .run _ t => t.asm = Assembler.idle ∧ t.cfg = p
  | .broken => True

theorem dispatchFrame_leavesLegal (frame : List Byte) (s : State) : (dispatchFrame frame s).LeavesLegal s.cfg := by
  unfold dispatchFrame
  split
  · exact ⟨report_asm _ _, report_cfg _ _⟩
  · trivial

theorem takeHeader_leavesLegal (b : Byte) (s : State) : (takeHeader b s).LeavesLegal s.cfg := by
  unfold takeHeader
  split
  · exact dispatchFrame_leavesLegal _ _
  next hk =>
    split
    next c hc => exact Assembler.collecting_header_wf hk hc
    · exact dispatchFrame_leavesLegal _ _

theorem takeArgument_leavesLegal (b : Byte) {s : State} (hw : s.asm.Wf s.cfg) (hp : s.asm.phase = .collect) :
    (takeArgument b s).LeavesLegal s.cfg := by
  unfold takeArgument
  dsimp only
  split
  · exact dispatchFrame_leavesLegal _ _
  next hl => exact hw.append hp b hl

theorem takeCandidate_leavesLegal (b : Byte) {s : State} (hw : s.asm.Wf s.cfg) :
    (takeCandidate b s).LeavesLegal s.cfg := by
  unfold takeCandidate
  split
  · exact dispatchFrame_leavesLegal _ _
  · exact hw

theorem takeByte_leavesLegal (b : Byte) {s : State} (hw : s.asm.Wf s.cfg) : (takeByte b s).LeavesLegal s.cfg := by
  unfold takeByte
  split
  · exact takeHeader_leavesLegal b s
  next hp => exact takeArgument_leavesLegal b hw hp
  · exact takeCandidate_leavesLegal b hw

theorem takeAbandon_leavesLegal {s : State} (hw : s.asm.Wf s.cfg) : (takeAbandon s).LeavesLegal s.cfg := by
  unfold takeAbandon
  split
  · split
    · exact resyncTarget_wf s.cfg
    · trivial
  · exact hw
  · exact hw

theorem fetch_leavesLegal {s : State} (hw : s.asm.Wf s.cfg) : (fetch s).LeavesLegal s.cfg := by
  unfold fetch
  split
  · exact hw
  · split
    · exact takeByte_leavesLegal _ hw
    · exact takeAbandon_leavesLegal hw

/-! ### What a step keeps -/

/-- R28, R26: a step changes neither the parameters nor the number of records. -/
theorem step_keeps {s t : State} (h : step s = .next t) : t.cfg = s.cfg ∧ t.cs.length = s.cs.length := by
  obtain ⟨-, rfl⟩ | ⟨x, rest, -, ⟨a, r, -, rfl⟩ | ⟨hd, n, rfl⟩ | ⟨frame, i, -, hx⟩⟩ := step_cases h
  · exact ⟨rfl, rfl⟩
  · exact ⟨rfl, rfl⟩
  · exact ⟨rfl, rfl⟩
  · obtain ⟨hcfg, -, -, hlen⟩ := effect_keeps (effect_of_exec hx)
    exact ⟨hcfg, hlen⟩

/-- R22, R103: a command that runs with the assembler idle leaves it legal. -/
theorem exec_keeps_asm_wf {i : Instr} {s t : State} (h : exec i s = .next t) (ha : s.asm = Assembler.idle) :
    t.asm.Wf s.cfg := by
  obtain ⟨hasm, -⟩ | ⟨hasm, -⟩ := effect_asm (effect_of_exec h)
  · rw [hasm, ha]
    exact Assembler.idle_wf s.cfg
  · rw [hasm]
    exact resyncTarget_wf s.cfg

/-- R22: a step keeps the assembler legal. -/
theorem step_keeps_asm_wf {s t : State} (hw : s.asm.Wf s.cfg) (h : step s = .next t) : t.asm.Wf s.cfg := by
  have hleft := fetch_leavesLegal hw
  cases hf : fetch s with
  | settled u =>
    rw [step_settled hf] at h
    cases h
    rwa [hf] at hleft
  | run i u =>
    rw [step_run hf] at h
    rw [hf] at hleft
    obtain ⟨hidle, hcfg⟩ := hleft
    rw [← hcfg]
    exact exec_keeps_asm_wf h hidle
  | broken =>
    rw [step_broken hf] at h
    cases h

/-- Settles O16: the parameters and the number of records stay, and the assembler stays legal. -/
theorem stepKeepsTheInvariant : Obligations.StepKeepsTheInvariant := by
  rintro s t ⟨hcfg, hasm, hlen⟩ h
  obtain ⟨hcfg', hlen'⟩ := step_keeps h
  refine ⟨?parameters, ?assembler, ?records⟩
  case parameters => rwa [hcfg']
  case assembler =>
    rw [hcfg']
    exact step_keeps_asm_wf hasm h
  case records => rw [hlen', hcfg', hlen]

/-- Settles O14: it is one half of what every step keeps. -/
theorem configurationIsConstant : Obligations.ConfigurationIsConstant :=
  fun _ _ h => (step_keeps h).1

/-! ### Reset -/

/-- R7, R26: legal parameters give one default record a channel. -/
theorem defaultState_length_of_wf {p : Params} (h : p.wf = true) : p.defaultState.length = p.nch := by
  simp only [Params.wf, Bool.and_eq_true] at h
  obtain ⟨-, hdefaults⟩ := h
  exact beq_iff_eq.mp hdefaults

/-- R22, R26, R35: a block of legal parameters is legal right after reset. -/
theorem boot_legal {p : Params} (h : p.wf = true) : Legal (State.boot p) :=
  ⟨h, Assembler.idle_wf p, defaultState_length_of_wf h⟩

/-- R145: whatever pairs `SWAP_MAP` has, they name channels of the device, which has all four. -/
theorem device_swapOk : Config.device.swapOk = true := by
  refine List.all_eq_true.mpr fun row _ => ?_
  rw [Bool.and_eq_true]
  exact ⟨decide_eq_true row.2.1.isLt, decide_eq_true row.2.2.isLt⟩

/-- R7, log entry 2: the parameters of the machine behind `State.reset` are legal. -/
theorem device_wf : Config.device.wf = true := by
  have hnch : Config.device.nchOk = true := rfl
  have hcodes : Config.device.codesOk = true := by decide
  have hdefaults : Config.device.defaultsOk = true := rfl
  rw [Params.wf, hnch, hcodes, device_swapOk, hdefaults]
  rfl

/-- Settles O15: reset is `State.boot` of the device's parameters, which are legal. -/
theorem resetMeetsTheInvariant : Obligations.ResetMeetsTheInvariant :=
  ⟨fun _ hp => boot_legal hp, boot_legal device_wf⟩

/-- R35: the values of a block right after reset. -/
theorem boot_values (p : Params) : (State.boot p).asm.phase = .idle ∧ (State.boot p).asm.buf = [] ∧
    (State.boot p).asm.need = 0 ∧ (State.boot p).asm.kind = none ∧
    ∀ ch : Nat, ch < p.nch → (State.boot p).cs[ch]? = p.defaultState[ch]? := by
  rw [boot_asm, boot_cs]
  exact ⟨rfl, rfl, rfl, rfl, fun _ _ => rfl⟩

/-- Settles O12: the values of `State.boot`, for every configuration and for the device's. -/
theorem resetValues : Obligations.ResetValues :=
  ⟨fun p => ⟨boot_cfg p, boot_values p⟩, boot_values Config.device⟩

end Sys2Proof.Machine
end

section
/-! PROOFS. Which fields of a record a command writes (spec/10_state.md R24, R25). -/

namespace Sys2Proof.Machine

open Sys2Proof

/-- What a command can make of a record: the "written by" column of R24, one constructor a writer, and the record as it
was (a channel the command does not address, a rejected mutation, or a command that writes no record). -/
inductive MayWrite : Instr → ChannelState → ChannelState → Prop where
  | kept (i : Instr) (r : ChannelState) : MayWrite i r r
  | csl (ch : BitVec 2) (src : Byte) (r : ChannelState) :
      MayWrite (.csl ch src) r { r with src := src, mode := .loopback }
  | cso (ch : BitVec 2) (src : Byte) (r : ChannelState) :
      MayWrite (.cso ch src) r { r with src := src, mode := .oneShot }
  | csn (ch : BitVec 2) (src shot : Byte) (r : ChannelState) :
      MayWrite (.csn ch src shot) r { r with src := src, mode := .nShot, shot := shot }
  | ctp (ch : BitVec 2) (v : Word32) (r : ChannelState) : MayWrite (.ctp ch v) r { r with period := v }
  | tf (ch : BitVec 2) (f : Word32) (r : ChannelState) : MayWrite (.tf ch f) r { r with factor := f }
  | voff (ch : BitVec 2) (v : Word16) (r : ChannelState) : MayWrite (.voff ch v) r { r with voff := v }
  | son (ch : BitVec 2) (v : Word32) (r : ChannelState) : MayWrite (.son ch v) r { r with son := v }
  | soff (ch : BitVec 2) (v : Word32) (r : ChannelState) : MayWrite (.soff ch v) r { r with soff := v }
  | reset (v : BitVec 4) (p : SourceSettings) (r : ChannelState) : MayWrite (.reset v) r (withSettings p r)
  | swap (v : BitVec 4) (r r' : ChannelState) : MayWrite (.swap v) r r'

/-- On every channel, `t` has a record that the command can make of that of `s`. -/
def RecordsMayWrite (i : Instr) (s t : State) : Prop :=
  ∀ (ch : Nat) (r r' : ChannelState), s.cs[ch]? = some r → t.cs[ch]? = some r' → MayWrite i r r'

section
variable {i : Instr} {s t : State}

/-- A command that leaves the registry. -/
theorem recordsMayWrite_of_cs_eq (h : t.cs = s.cs) : RecordsMayWrite i s t := by
  intro ch r r' hr hr'
  rw [h, hr] at hr'
  cases hr'
  exact .kept i r

/-- An accepted mutation writes the record of its channel and keeps the others. -/
theorem mutateAndEmit_mayWrite (n : Nat) {m : ChannelState → ChannelState} (e : Event) (hm : ∀ r, MayWrite i r (m r)) :
    RecordsMayWrite i s (mutateAndEmit n m e s) := by
  intro ch r r' hr hr'
  have hcs : (apply n m s).cs[ch]? = some r' := hr'
  by_cases hch : ch = n
  · subst hch
    rw [apply_cs, List.getElem?_modify_eq, hr] at hcs
    cases hcs
    exact hm r
  · rw [apply_other m hch, hr] at hcs
    cases hcs
    exact .kept i r

/-- A rejected mutation keeps every record. -/
theorem mutateIf_mayWrite (ok : Bool) (b : Byte) (n : Nat) (w : RejectReason) {m : ChannelState → ChannelState}
    (e : Event) (hm : ∀ r, MayWrite i r (m r)) : RecordsMayWrite i s (mutateIf ok b n w m e s) := by
  cases ok with
  | true => exact mutateAndEmit_mayWrite n e hm
  | false => exact recordsMayWrite_of_cs_eq rfl

/-- A command on a channel outside the set keeps every record. -/
theorem onChannel_mayWrite (c : MultiCmd) (ch : BitVec 2) {act : Byte → Nat → State → State}
    (h : ∀ b n, RecordsMayWrite i s (act b n s)) : RecordsMayWrite i s (onChannel c ch act s) := by
  unfold onChannel
  split
  · exact h _ _
  · exact recordsMayWrite_of_cs_eq rfl

/-- The loop of `RESET` writes the five source-owned fields of every record. -/
theorem restorePresets_mayWrite (v : BitVec 4) (e : Event) :
    RecordsMayWrite (.reset v) s (emit e (restorePresets s)) := by
  intro ch r r' hr hr'
  rw [emit_cs, restorePresets_get, hr] at hr'
  cases hr'
  exact .reset v _ r

end

/-- What each command can make of each record. -/
theorem exec_mayWrite {i : Instr} {s t : State} (h : exec i s = .next t) : RecordsMayWrite i s t := by
  cases i with
  | start | stop | invalid4 | invalid5 | invalid6 | ident | undefinedLow | undefinedHigh =>
    cases h
    exact recordsMayWrite_of_cs_eq rfl
  | reset v => cases h; exact restorePresets_mayWrite v _
  | swap v => exact fun _ r r' _ _ => .swap v r r'
  | csl ch src => cases h; exact onChannel_mayWrite _ _ fun _ n => mutateAndEmit_mayWrite n _ (.csl ch src)
  | cso ch src => cases h; exact onChannel_mayWrite _ _ fun _ n => mutateAndEmit_mayWrite n _ (.cso ch src)
  | csn ch src shot => cases h; exact onChannel_mayWrite _ _ fun _ n => mutateAndEmit_mayWrite n _ (.csn ch src shot)
  | ctp ch v => cases h; exact onChannel_mayWrite _ _ fun b n => mutateIf_mayWrite _ b n _ _ (.ctp ch v)
  | tf ch f => cases h; exact onChannel_mayWrite _ _ fun b n => mutateIf_mayWrite _ b n _ _ (.tf ch f)
  | voff ch v => cases h; exact onChannel_mayWrite _ _ fun b n => mutateIf_mayWrite _ b n _ _ (.voff ch v)
  | son ch v => cases h; exact onChannel_mayWrite _ _ fun _ n => mutateAndEmit_mayWrite n _ (.son ch v)
  | soff ch v => cases h; exact onChannel_mayWrite _ _ fun _ n => mutateAndEmit_mayWrite n _ (.soff ch v)

/-- Settles O57: each writer of R24 leaves the fields it is not named for, and a kept record keeps them all. -/
theorem fieldsHaveTheirWriters : Obligations.FieldsHaveTheirWriters := by
  intro i s t ch r r' h hr hr'
  cases exec_mayWrite h ch r r' hr hr' with
  | kept => cases i <;> simp
  | swap => simp
  | reset => simp
  | csl | cso | csn | ctp | tf | voff | son | soff => simp

end Sys2Proof.Machine
end

section
/-! PROOFS. The read port (spec/20_memory.md R50, R52). -/

namespace Sys2Proof.Machine

open Sys2Proof

/-- R52: a read of a channel of the set that has a record gives that record. -/
theorem getChannel_of_lt {s : State} {ch : Nat} {r : ChannelState} (h : ch < s.cfg.nch) (hr : s.cs[ch]? = some r) :
    getChannel ch s = .ok r := by
  simp only [getChannel, h, if_true, hr]

/-- R52, log entry 13: a read of a channel outside the set is refused. -/
theorem getChannel_of_ge {s : State} {ch : Nat} (h : s.cfg.nch ≤ ch) :
    getChannel ch s = .error (.readOutsideRegistry ch) := by
  simp only [getChannel, Nat.not_lt.mpr h, if_false]

/-- Settles O58: the invariant gives every channel of the set its record (R26). -/
theorem readPortGivesTheRecord : Obligations.ReadPortGivesTheRecord := by
  rintro s ch ⟨-, -, hlen⟩
  refine ⟨fun hlt => ?_, getChannel_of_ge⟩
  have hr : s.cs[ch]? = some (s.cs[ch]'(hlen ▸ hlt)) := List.getElem?_eq_getElem _
  exact ⟨_, getChannel_of_lt hlt hr, hr⟩

end Sys2Proof.Machine
end

section
/-! PROOFS. What one command makes of two states of the same configuration and the same `holdConst`, and from it that the
registry feeds back into neither framing nor events (spec/20_memory.md R65). -/

namespace Sys2Proof.Machine

open Sys2Proof

/-! ### One command in two states -/

/-- One and the same operation done in `s` and in `u`: the shapes of `Effect`, two states at a time. The Boolean says
whether the operation is the discard of an undefined header. -/
inductive Paired (s u : State) : Bool → State → State → Prop where
  | emitted (e : Event) : Paired s u false (emit e s) (emit e u)
  | mutated (ch : Nat) (m : ChannelState → ChannelState) (e : Event) :
      Paired s u false (mutateAndEmit ch m e s) (mutateAndEmit ch m e u)
  | presets : Paired s u false (emit .devResetAllSources (restorePresets s)) (emit .devResetAllSources (restorePresets u))
  | exchanged (a c : Nat) : Paired s u false (emit (.srcSwap a c) (exchange a c s)) (emit (.srcSwap a c) (exchange a c u))
  | discarded (h : Byte) : Paired s u true (discardHeader h s) (discardHeader h u)

section
variable {s u s' u' : State} {undef : Bool}

theorem mutateIf_paired (ok : Bool) (b : Byte) (ch : Nat) (w : RejectReason) (m : ChannelState → ChannelState)
    (e : Event) : Paired s u false (mutateIf ok b ch w m e s) (mutateIf ok b ch w m e u) := by
  cases ok with
  | true => exact .mutated ch m e
  | false => exact .emitted _

/-- The channel check reads the configuration alone. -/
theorem onChannel_paired (hcfg : u.cfg = s.cfg) (c : MultiCmd) (ch : BitVec 2) {act act' : Byte → Nat → State → State}
    (h : ∀ b n, Paired s u false (act b n s) (act' b n u)) :
    Paired s u false (onChannel c ch act s) (onChannel c ch act' u) := by
  unfold onChannel
  rw [hcfg]
  split
  · exact h _ _
  · exact .emitted _

/-- Which operation a command comes to depends on the configuration and on `holdConst`, and on nothing else. -/
theorem exec_paired (i : Instr) (hcfg : u.cfg = s.cfg) (hhold : u.holdConst = s.holdConst) :
    ∃ s' u', exec i s = .next s' ∧ exec i u = .next u' ∧ Paired s u (isUndefined i) s' u' := by
  cases i with
  | start | stop | invalid4 | invalid5 | invalid6 | ident => exact ⟨_, _, rfl, rfl, .emitted _⟩
  | reset v => exact ⟨_, _, rfl, rfl, .presets⟩
  | swap v =>
    refine ⟨_, _, rfl, rfl, ?_⟩
    rw [hcfg]
    split
    · exact .emitted _
    · exact .exchanged _ _
  | csl | cso | csn | son | soff =>
    exact ⟨_, _, rfl, rfl, onChannel_paired hcfg _ _ fun _ _ => .mutated _ _ _⟩
  | tf | voff => exact ⟨_, _, rfl, rfl, onChannel_paired hcfg _ _ fun _ _ => mutateIf_paired _ _ _ _ _ _⟩
  | ctp ch v =>
    refine ⟨_, _, rfl, rfl, onChannel_paired hcfg _ _ fun _ _ => ?_⟩
    rw [hhold]
    exact mutateIf_paired _ _ _ _ _ _
  | undefinedLow | undefinedHigh => exact ⟨_, _, rfl, rfl, .discarded _⟩

/-- No operation takes its event from the state. -/
theorem Paired.event_eq (h : Paired s u undef s' u') : u'.event = s'.event := by
  cases h <;> rfl

/-- What an operation writes to the registry depends on the configuration and the registry. -/
theorem Paired.cs_eq (h : Paired s u undef s' u') (hcfg : u.cfg = s.cfg) (hcs : u.cs = s.cs) : u'.cs = s'.cs := by
  cases h with
  | emitted | discarded => exact hcs
  | mutated ch m e => exact congrArg (List.modify · ch m) hcs
  | presets => rw [emit_cs, emit_cs, restorePresets_cs, restorePresets_cs, hcfg, hcs]
  | exchanged a c => exact congrArg (swapRecords a c) hcs

/-- What an operation leaves in the assembler depends on the configuration and the assembler. -/
theorem Paired.asm_eq (h : Paired s u undef s' u') (hcfg : u.cfg = s.cfg) (hasm : u.asm = s.asm) : u'.asm = s'.asm := by
  cases h with
  | emitted | mutated | presets | exchanged => exact hasm
  | discarded => exact congrArg (resyncTarget ·.resync) hcfg

/-- An operation keeps the result or replaces it by one and the same error. -/
theorem Paired.result_eq (h : Paired s u undef s' u') (hres : u.result = s.result) : u'.result = s'.result := by
  cases h with
  | emitted | mutated | presets | exchanged => exact hres
  | discarded => rfl

/-- Only the discard of an undefined header writes the assembler. -/
theorem Paired.asm_kept (h : Paired s u false s' u') : s'.asm = s.asm := by
  cases h <;> rfl

end

/-! ### The token half of a step with another registry -/

/-- The same answer of the token half, with another registry. -/
def Fetched.withRegistry (cs : List ChannelState) : Fetched → Fetched
  | .settled s => .settled { s with cs := cs }
  | .run i s => .run i { s with cs := cs }
  | .broken => .broken

section
variable (cs : List ChannelState) (s : State)

theorem dispatchFrame_withRegistry (frame : List Byte) :
    dispatchFrame frame { s with cs := cs } = (dispatchFrame frame s).withRegistry cs := by
  unfold dispatchFrame
  dsimp only
  split <;> rfl

theorem takeHeader_withRegistry (b : Byte) :
    takeHeader b { s with cs := cs } = (takeHeader b s).withRegistry cs := by
  unfold takeHeader
  dsimp only
  split
  · exact dispatchFrame_withRegistry cs s [b]
  · split
    · rfl
    · exact dispatchFrame_withRegistry cs s [b]

theorem takeArgument_withRegistry (b : Byte) :
    takeArgument b { s with cs := cs } = (takeArgument b s).withRegistry cs := by
  unfold takeArgument
  dsimp only
  split
  · exact dispatchFrame_withRegistry cs s (s.asm.buf ++ [b])
  · rfl

theorem takeCandidate_withRegistry (b : Byte) :
    takeCandidate b { s with cs := cs } = (takeCandidate b s).withRegistry cs := by
  unfold takeCandidate
  split
  · exact dispatchFrame_withRegistry cs s [b]
  · rfl

theorem takeByte_withRegistry (b : Byte) :
    takeByte b { s with cs := cs } = (takeByte b s).withRegistry cs := by
  unfold takeByte
  dsimp only
  split
  · exact takeHeader_withRegistry cs s b
  · exact takeArgument_withRegistry cs s b
  · exact takeCandidate_withRegistry cs s b

theorem takeAbandon_withRegistry :
    takeAbandon { s with cs := cs } = (takeAbandon s).withRegistry cs := by
  unfold takeAbandon
  dsimp only
  split
  · split <;> rfl
  · rfl
  · rfl

/-- R65: the token half of a step reads nothing of the registry and hands it on as it is. -/
theorem fetch_withRegistry : fetch { s with cs := cs } = (fetch s).withRegistry cs := by
  unfold fetch
  dsimp only
  split
  · rfl
  next x rest _ =>
    split
    · exact takeByte_withRegistry cs (beginStep x rest s) _
    · exact takeAbandon_withRegistry cs (beginStep x rest s)

end

/-- Settles O31: the token half hands the registry on, and a command's event, assembler and result do not depend on it. -/
theorem framingIgnoresTheRegistry : Obligations.FramingIgnoresTheRegistry := by
  intro s t other h
  have hother := fetch_withRegistry other s
  cases hf : fetch s with
  | settled v =>
    rw [step_settled hf] at h
    cases h
    rw [hf] at hother
    exact ⟨_, step_settled hother, rfl, rfl, rfl, rfl⟩
  | run i v =>
    rw [step_run hf] at h
    rw [hf] at hother
    obtain ⟨t', u, ht, hu, hp⟩ := exec_paired i (s := v) (u := { v with cs := other }) rfl rfl
    rw [ht] at h
    cases h
    obtain ⟨-, htinput, -⟩ := effect_keeps (effect_of_exec ht)
    obtain ⟨-, huinput, -⟩ := effect_keeps (effect_of_exec hu)
    exact ⟨u, (step_run hother).trans hu, hp.asm_eq rfl rfl, hp.result_eq rfl, hp.event_eq, huinput.trans htinput.symm⟩
  | broken =>
    rw [step_broken hf] at h
    cases h

end Sys2Proof.Machine
end

section
/-! PROOFS. The frame of a command decodes to the command (spec/30_encoding.md R86), and what the bytes of a decodable
frame are (R85). -/

namespace Sys2Proof

section
variable {p : Params}

/-- The bytes after a Single header are not its own. -/
theorem decode_of_single {h : Byte} (hk : kindOf h = .single) (args : List Byte) :
    decode p (h :: args) = .ok (decodeSingle h, args) := by
  simp only [decode, hk]

/-- The bytes after a defined Multi header go to the argument decoder of its command. -/
theorem decode_of_command {h : Byte} {c : MultiCmd} (hk : kindOf h = .multi)
    (hc : p.commandOf (multiCommand h) = some c) (args : List Byte) :
    decode p (h :: args) = decodeArgs p.argEndian c (multiChannel h) args := by
  simp only [decode, hk, hc]

/-- The bytes after an undefined Multi header are not its own. -/
theorem decode_of_undefined {h : Byte} (hk : kindOf h = .multi) (hc : p.commandOf (multiCommand h) = none)
    (args : List Byte) : decode p (h :: args) = .ok (decodeUndefined h, args) := by
  simp only [decode, hk, hc]

theorem decode_encSingle (v : BitVec 4) (c : BitVec 3) (args : List Byte) :
    decode p (encSingle v c :: args) = .ok (decodeSingle (encSingle v c), args) :=
  decode_of_single (kindOf_encSingle v c) args

theorem decode_multiHeader (hp : p.codesOk = true) (c : MultiCmd) (ch : BitVec 2) (args : List Byte) :
    decode p (p.multiHeader c ch :: args) = decodeArgs p.argEndian c ch args := by
  have hc : p.commandOf (multiCommand (p.multiHeader c ch)) = some c := by
    rw [Params.multiHeader, multiCommand_encMultiHeader, commandOf_codeOf hp]
  rw [decode_of_command (h := p.multiHeader c ch) (kindOf_encMultiHeader _ _) hc, Params.multiHeader,
    multiChannel_encMultiHeader]

theorem decode_undefinedHeader {code : BitVec 5} (hu : p.undefinedCode code = true) (ch : BitVec 2) (args : List Byte) :
    decode p (encMultiHeader ch code :: args) = .ok (decodeUndefined (encMultiHeader ch code), args) := by
  have hc : p.commandOf (multiCommand (encMultiHeader ch code)) = none := by
    rw [multiCommand_encMultiHeader]
    exact undefinedCode_iff.mp hu
  exact decode_of_undefined (kindOf_encMultiHeader _ _) hc args

/-- R86: the decoder reads a command back from its frame, and leaves the bytes after it. -/
theorem decode_encode (hp : p.codesOk = true) {i : Instr} (hw : i.wf p = true) (rest : List Byte) :
    decode p (encode p i ++ rest) = .ok (i, rest) := by
  cases i with
  | start v | stop v | reset v | swap v | invalid4 v | invalid5 v | invalid6 v | ident v =>
    refine (decode_encSingle v _ rest).trans ?_
    simp [decodeSingle]
  | csl | cso | csn => exact decode_multiHeader hp _ _ _
  | ctp ch v | tf ch v | son ch v | soff ch v =>
    obtain ⟨b0, b1, b2, b3, hb, hv⟩ := bytes32_spell p.argEndian v
    refine (decode_multiHeader hp _ ch _).trans ?_
    simp only [argBytes, hb, List.append_eq, List.cons_append, List.nil_append, decodeArgs, hv]
  | voff ch v =>
    obtain ⟨b0, b1, hb, hv⟩ := bytes16_spell p.argEndian v
    refine (decode_multiHeader hp _ ch _).trans ?_
    simp only [argBytes, hb, List.append_eq, List.cons_append, List.nil_append, decodeArgs, hv]
  | undefinedLow ch code =>
    refine (decode_undefinedHeader hw ch rest).trans ?_
    rw [decodeUndefined_low]
  | undefinedHigh ch code =>
    refine (decode_undefinedHeader hw ch rest).trans ?_
    rw [decodeUndefined_high]

/-- R85: a list of bytes that decodes as a whole is a Single header, an undefined Multi header, or a defined Multi header
with as many argument bytes as its command has. -/
theorem frame_cases {h : Byte} {args : List Byte} {i : Instr} (hd : decode p (h :: args) = .ok (i, [])) :
    (kindOf h = .single ∧ args = []) ∨
    (kindOf h = .multi ∧ p.commandOf (multiCommand h) = none ∧ args = []) ∨
    ∃ c, kindOf h = .multi ∧ p.commandOf (multiCommand h) = some c ∧ args.length + 1 = c.size := by
  cases hk : kindOf h with
  | single =>
    rw [decode_of_single hk] at hd
    cases hd
    exact .inl ⟨rfl, rfl⟩
  | multi =>
    cases hc : p.commandOf (multiCommand h) with
    | none =>
      rw [decode_of_undefined hk hc] at hd
      cases hd
      exact .inr (.inl ⟨rfl, rfl, rfl⟩)
    | some c =>
      rw [decode_of_command hk hc] at hd
      obtain ⟨j, rest, hj, hargs, hlen, -⟩ | ⟨herr, -⟩ := decodeArgs_cases p.argEndian c (multiChannel h) args
      · rw [hj] at hd
        cases hd
        rw [List.append_nil] at hargs
        exact .inr (.inr ⟨c, rfl, rfl, hargs ▸ hlen⟩)
      · rw [herr] at hd
        cases hd

end

end Sys2Proof
end

section
/-! PROOFS. A frame sent from IDLE runs its command at its last byte, and frames sent in a row run their commands in order,
each once (spec/20_memory.md R62, R63). -/

namespace Sys2Proof.Machine

open Sys2Proof

/-! ### Runs and the events they report -/

/-- `k` steps from `s` lead to `t` and report exactly the events `es`. -/
def RunsTo (k : Nat) (s : State) (es : List Event) (t : State) : Prop :=
  Host.Core.run Sys2Proof.core k s = .next t ∧ eventsDuring k s = es

theorem RunsTo.refl (s : State) : RunsTo 0 s [] s := ⟨rfl, rfl⟩

section
variable {s t u : State} {es fs : List Event} {j k : Nat}

/-- A run begins with a step and the step's event. -/
theorem RunsTo.cons (h : step s = .next t) (hr : RunsTo k t es u) : RunsTo (k + 1) s (t.event.toList ++ es) u := by
  obtain ⟨hrun, hev⟩ := hr
  have hstep : Sys2Proof.core.step s = .next t := h
  refine ⟨?_, ?_⟩
  · rw [← hrun]
    simp only [Host.Core.run, hstep]
  · simp only [eventsDuring, h, hev]

/-- A step as a run. -/
theorem RunsTo.one (h : step s = .next t) : RunsTo 1 s t.event.toList t := by
  simpa only [List.append_nil] using RunsTo.cons h (.refl t)

/-- The first step of a run that has one. -/
theorem RunsTo.uncons (h : RunsTo (k + 1) s es u) :
    ∃ t fs, step s = .next t ∧ RunsTo k t fs u ∧ es = t.event.toList ++ fs := by
  obtain ⟨hrun, hev⟩ := h
  have hstep : Sys2Proof.core.step s = step s := rfl
  simp only [Host.Core.run, hstep] at hrun
  simp only [eventsDuring] at hev
  cases hs : step s with
  | next t =>
    rw [hs] at hrun hev
    exact ⟨t, _, rfl, ⟨hrun, rfl⟩, hev.symm⟩
  | fault r => rw [hs] at hrun; cases hrun
  | refused r => rw [hs] at hrun; cases hrun

/-- A run and a run from where it ends. -/
theorem RunsTo.trans (h : RunsTo j s es t) (h' : RunsTo k t fs u) : RunsTo (j + k) s (es ++ fs) u := by
  induction j generalizing s es with
  | zero =>
    obtain ⟨hrun, hev⟩ := h
    cases hrun
    subst hev
    rwa [Nat.zero_add]
  | succ j ih =>
    obtain ⟨v, gs, hstep, hrest, rfl⟩ := h.uncons
    rw [Nat.succ_add, List.append_assoc]
    exact .cons hstep (ih hrest)

end

/-! ### One frame -/

/-- The bytes `l` as the tokens of as many steps, with the answer `hold` at each. -/
def byteTokens (l : List Byte) (hold : Bool) : List StepInput := l.map fun b => ⟨.byte b, hold⟩

theorem frameTokens_eq (p : Params) (i : Instr) (hold : Bool) : frameTokens p i hold = byteTokens (encode p i) hold := rfl

/-- The state `s` after the bytes `got` of a Multi frame of `need` bytes, with `queue` still to be taken (R22, R106). -/
def midFrame (got : List Byte) (need : Nat) (hold : Bool) (queue : List StepInput) (s : State) : State :=
  { s with
    asm := Assembler.collecting got need
    input := queue
    holdConst := hold
    result := some .incomplete
    event := none }

/-- The state in which the command of a frame runs that began in `s`, with `later` still to be taken (R103). -/
def frameState (frame : List Byte) (hold : Bool) (later : List StepInput) (s : State) : State :=
  { s with
    asm := Assembler.idle
    input := later
    holdConst := hold
    result := some (.complete frame)
    event := none }

section
variable {i : Instr} {s t : State} {hold : Bool} {later : List StepInput}

/-- R106: the argument bytes that a frame still needs complete it, and its command runs at the last of them. -/
theorem arguments_run {got args : List Byte} {need : Nat} (hne : args ≠ []) (hlen : got.length + args.length = need)
    (hd : decode s.cfg (got ++ args) = .ok (i, []))
    (hx : exec i (frameState (got ++ args) hold later s) = .next t) :
    RunsTo args.length (midFrame got need hold (byteTokens args hold ++ later) s) t.event.toList t := by
  induction args generalizing got with
  | nil => exact absurd rfl hne
  | cons b args ih =>
    have hphase : (midFrame got need hold (byteTokens (b :: args) hold ++ later) s).asm.phase = .collect := rfl
    by_cases hnil : args = []
    · subst hnil
      have hfull : (got ++ [b]).length = need := by simpa using hlen
      have hf := fetch_last_argument (s := midFrame got need hold (byteTokens [b] hold ++ later) s) rfl hphase hfull
      exact .one ((step_dispatch hf hd).trans hx)
    · have hpos := List.length_pos_iff.mpr hnil
      have hpart : (got ++ [b]).length ≠ need := by
        simp only [List.length_append, List.length_cons, List.length_nil] at hlen ⊢
        omega
      have hf := fetch_argument (s := midFrame got need hold (byteTokens (b :: args) hold ++ later) s) rfl hphase hpart
      have hrest : got ++ b :: args = (got ++ [b]) ++ args := by rw [List.append_assoc, List.singleton_append]
      rw [hrest] at hd hx
      refine .cons (step_settled hf) (ih (got := got ++ [b]) hnil ?_ hd hx)
      simp only [List.length_append, List.length_cons, List.length_nil] at hlen ⊢
      omega

/-- R102, R104, R105, R106: the bytes of a whole frame, sent from IDLE, run its command at the last of them, and no step
before reports an event. -/
theorem frame_runs {frame : List Byte} (hp : s.asm.phase = .idle) (hd : decode s.cfg frame = .ok (i, []))
    (hi : s.input = byteTokens frame hold ++ later) (hx : exec i (frameState frame hold later s) = .next t) :
    RunsTo frame.length s t.event.toList t := by
  cases frame with
  | nil => cases hd
  | cons h args =>
    obtain ⟨hk, rfl⟩ | ⟨hk, hc, rfl⟩ | ⟨c, hk, hc, hsize⟩ := frame_cases hd
    · exact .one ((step_dispatch (fetch_single hi hp hk) hd).trans hx)
    · exact .one ((step_dispatch (fetch_undefined hi hp hk hc) hd).trans hx)
    · have hne : args ≠ [] := by
        rintro rfl
        have := size_ge_two c
        simp only [List.length_nil] at hsize
        omega
      have hlen : [h].length + args.length = c.size := by rw [← hsize, List.length_singleton, Nat.add_comm]
      exact .cons (step_settled (fetch_multi hi hp hk hc)) (arguments_run (got := [h]) hne hlen hd hx)

end

/-! ### Frames in a row -/

/-- The registry and the event after a command depend on the configuration, the registry and `holdConst`. -/
theorem exec_agrees {i : Instr} {s u s' : State} (hcfg : u.cfg = s.cfg) (hhold : u.holdConst = s.holdConst)
    (hcs : u.cs = s.cs) (h : exec i s = .next s') :
    ∃ u', exec i u = .next u' ∧ u'.cfg = s'.cfg ∧ u'.cs = s'.cs ∧ u'.event = s'.event := by
  obtain ⟨t, u', ht, hu, hp⟩ := exec_paired i hcfg hhold
  rw [ht] at h
  cases h
  obtain ⟨hcfgs, -⟩ := effect_keeps (effect_of_exec ht)
  obtain ⟨hcfgu, -⟩ := effect_keeps (effect_of_exec hu)
  exact ⟨u', hu, hcfgu.trans (hcfg.trans hcfgs.symm), hp.cs_eq hcfg hcs, hp.event_eq⟩

/-- A list of commands makes the same of the registry, and reports the same events, in every state of one configuration
and one registry. -/
theorem commands_agree (l : List (Instr × Bool)) {s u : State} (hcfg : u.cfg = s.cfg) (hcs : u.cs = s.cs) :
    registryAfter l u = registryAfter l s ∧ eventsOf l u = eventsOf l s := by
  induction l generalizing s u with
  | nil => exact ⟨hcs, rfl⟩
  | cons x l ih =>
    obtain ⟨i, hold⟩ := x
    obtain ⟨s', hs, -⟩ := exec_effect i { s with holdConst := hold }
    obtain ⟨u', hu, hcfg', hcs', hev⟩ :=
      exec_agrees (s := { s with holdConst := hold }) (u := { u with holdConst := hold }) hcfg rfl hcs hs
    obtain ⟨hreg, hevs⟩ := ih hcfg' hcs'
    simp only [registryAfter, eventsOf, hs, hu, hev, hreg, hevs, and_self]

/-- R22: a legal assembler in IDLE is empty. -/
theorem Assembler.Wf.eq_idle {p : Params} {a : Assembler} (hw : a.Wf p) (hp : a.phase = .idle) :
    a = Assembler.idle := by
  obtain ⟨hidle, -, -⟩ := hw
  obtain ⟨hbuf, hneed, hkind⟩ := hidle hp
  rw [Assembler.idle, ← hp, ← hbuf, ← hneed, ← hkind]

/-- R103, R110: a command that runs with the assembler idle leaves it idle, unless it is an undefined header under
`HuntSingle`. -/
theorem exec_keeps_idle {i : Instr} {s t : State} (h : exec i s = .next t) (ha : s.asm = Assembler.idle)
    (hu : isUndefined i = true → s.cfg.resync = .restart) : t.asm = Assembler.idle := by
  obtain ⟨s', u', hs, -, hp⟩ := exec_paired i (s := s) (u := s) rfl rfl
  rw [hs] at h
  cases h
  cases hi : isUndefined i with
  | false =>
    rw [hi] at hp
    exact hp.asm_kept.trans ha
  | true =>
    obtain ⟨hasm, -⟩ | ⟨hasm, -⟩ := effect_asm (effect_of_exec hs)
    · exact hasm.trans ha
    · rw [hasm, hu hi]
      rfl

theorem streamTokens_cons (p : Params) (i : Instr) (hold : Bool) (l : List (Instr × Bool)) :
    streamTokens p ((i, hold) :: l) = byteTokens (encode p i) hold ++ streamTokens p l := rfl

theorem streamTokens_length_cons (p : Params) (i : Instr) (hold : Bool) (l : List (Instr × Bool)) :
    (streamTokens p ((i, hold) :: l)).length = (encode p i).length + (streamTokens p l).length := by
  rw [streamTokens_cons, List.length_append, byteTokens, List.length_map]

/-- R62, R63: the frames of a list of commands, sent from IDLE, run the commands in order, each once. -/
theorem frames_run {s : State} {l : List (Instr × Bool)} (hcodes : s.cfg.codesOk = true) (ha : s.asm = Assembler.idle)
    (hw : ∀ x ∈ l, x.1.wf s.cfg = true) (hu : ∀ x ∈ l, isUndefined x.1 = true → s.cfg.resync = .restart)
    (hi : s.input = streamTokens s.cfg l) :
    ∃ t, RunsTo (streamTokens s.cfg l).length s (eventsOf l s) t ∧ t.cs = registryAfter l s ∧
      t.asm = Assembler.idle ∧ t.input = [] := by
  induction l generalizing s with
  | nil => exact ⟨s, .refl s, rfl, ha, hi⟩
  | cons x l ih =>
    obtain ⟨i, hold⟩ := x
    obtain ⟨hwi, hwl⟩ := List.forall_mem_cons.mp hw
    obtain ⟨hui, hul⟩ := List.forall_mem_cons.mp hu
    -- The command by itself leads to `w`; run at the end of its frame it leads to `v`.
    obtain ⟨w, hexec, -⟩ := exec_effect i { s with holdConst := hold }
    obtain ⟨v, hx, hcfgw, hcsw, hevw⟩ :=
      exec_agrees (s := { s with holdConst := hold })
        (u := frameState (encode s.cfg i) hold (streamTokens s.cfg l) s) rfl rfl rfl hexec
    have hd : decode s.cfg (encode s.cfg i) = .ok (i, []) := by
      simpa only [List.append_nil] using decode_encode hcodes hwi []
    have hframe : RunsTo (encode s.cfg i).length s v.event.toList v := frame_runs (by rw [ha]; rfl) hd hi hx
    obtain ⟨hcfg, hinput, -⟩ := effect_keeps (effect_of_exec hx)
    replace hcfg : v.cfg = s.cfg := hcfg
    have hrest : v.input = streamTokens v.cfg l := by
      rw [hcfg]
      exact hinput
    rw [← hcfg] at hcodes hwl hul
    obtain ⟨t, hrun, hcs, hasm, hnil⟩ := ih hcodes (exec_keeps_idle hx rfl hui) hwl hul hrest
    obtain ⟨hreg, hevs⟩ := commands_agree l hcfgw hcsw
    refine ⟨t, ?run, ?registry, hasm, hnil⟩
    case run =>
      rw [hcfg] at hrun
      rw [streamTokens_length_cons]
      simp only [eventsOf, hexec, ← hevw, ← hevs]
      exact hframe.trans hrun
    case registry =>
      rw [hcs, hreg]
      simp only [registryAfter, hexec]

/-- Settles O35: an idle assembler of a legal state is empty (R22), so the frames run one after the other. -/
theorem framesRunOnceInOrder : Obligations.FramesRunOnceInOrder := by
  rintro s l ⟨hwf, hasm, -⟩ hp hw hu hi
  obtain ⟨t, ⟨hrun, hev⟩, hcs, hasm, hnil⟩ := frames_run (Params.wf_codesOk hwf) (hasm.eq_idle hp) hw hu hi
  exact ⟨t, hrun, hcs, hev, hasm, hnil⟩

end Sys2Proof.Machine
end

section
/-! PROOFS. The header encoders and their inverses (spec/30_encoding.md R74, spec/41_header_decoder.md R135), and the
argument values as the numbers their bytes spell (R80, R81). -/

namespace Sys2Proof

/-! ### Headers -/

/-- R74: the formula of a Single header. -/
theorem encSingle_eq_or (v : BitVec 4) (c : BitVec 3) :
    encSingle v c = 0x80#8 ||| (v.setWidth 8 <<< 3) ||| c.setWidth 8 := by
  calc encSingle v c = (encSingle v c).setWidth 8 := (BitVec.setWidth_eq _).symm
    _ = ((1#1).setWidth 8 <<< (4 + 3)) ||| (v.setWidth 8 <<< 3) ||| c.setWidth 8 :=
      BitVec.setWidth_append_append_eq_shiftLeft_setWidth_or
    _ = 0x80#8 ||| (v.setWidth 8 <<< 3) ||| c.setWidth 8 := rfl

/-- R74: the formula of a Multi header. -/
theorem encMultiHeader_eq_or (ch : BitVec 2) (c : BitVec 5) :
    encMultiHeader ch c = (ch.setWidth 8 <<< 5) ||| c.setWidth 8 := by
  calc encMultiHeader ch c = (encMultiHeader ch c).setWidth 8 := (BitVec.setWidth_eq _).symm
    _ = ((0#1).setWidth 8 <<< (2 + 5)) ||| (ch.setWidth 8 <<< 5) ||| c.setWidth 8 :=
      BitVec.setWidth_append_append_eq_shiftLeft_setWidth_or
    _ = 0#8 ||| (ch.setWidth 8 <<< 5) ||| c.setWidth 8 := rfl
    _ = (ch.setWidth 8 <<< 5) ||| c.setWidth 8 := by rw [BitVec.zero_or]

/-- Settles O1: a concatenation is the disjunction of its shifted parts. -/
theorem headerEncodersFollowTheFormulas : Obligations.HeaderEncodersFollowTheFormulas :=
  ⟨encSingle_eq_or, encMultiHeader_eq_or⟩

/-- R135: the fields of a Single header are the only ones that spell it. -/
theorem existsUnique_encSingle {b : Byte} (h : kindOf b = .single) :
    ∃! x : BitVec 4 × BitVec 3, encSingle x.1 x.2 = b := by
  refine ⟨(singleChannel b, singleCommand b), single_fields_spell_header h, ?_⟩
  rintro ⟨v, c⟩ rfl
  rw [singleChannel_encSingle, singleCommand_encSingle]

/-- R135: the fields of a Multi header are the only ones that spell it. -/
theorem existsUnique_encMultiHeader {b : Byte} (h : kindOf b = .multi) :
    ∃! x : BitVec 2 × BitVec 5, encMultiHeader x.1 x.2 = b := by
  refine ⟨(multiChannel b, multiCommand b), multi_fields_spell_header h, ?_⟩
  rintro ⟨ch, c⟩ rfl
  rw [multiChannel_encMultiHeader, multiCommand_encMultiHeader]

/-- Settles O3: the fields decoded from a header spell it, and the decoder gives back whatever fields spell it. -/
theorem headerFieldsReencode : Obligations.HeaderFieldsReencode := by
  refine ⟨fun b h => ?single, fun b h => ?multi⟩
  case single =>
    have hk := kindOf_of_set h
    exact ⟨single_fields_spell_header hk, existsUnique_encSingle hk⟩
  case multi =>
    have hk := kindOf_of_clear h
    exact ⟨multi_fields_spell_header hk, existsUnique_encMultiHeader hk⟩

/-! ### Argument values -/

/-- R80: a byte put after a value makes it the number with that low byte. -/
theorem toNat_append_byte {n : Nat} (a : BitVec n) (b : Byte) : (a ++ b).toNat = 256 * a.toNat + b.toNat := by
  rw [BitVec.toNat_append, ← Nat.shiftLeft_add_eq_or_of_lt b.isLt, Nat.shiftLeft_eq, Nat.mul_comm]

/-- R80: four bytes in a chain, the highest first. -/
theorem toNat_append_bytes (a b c d : Byte) :
    (a ++ b ++ c ++ d).toNat = 16777216 * a.toNat + 65536 * b.toNat + 256 * c.toNat + d.toNat := by
  rw [toNat_append_byte, toNat_append_byte, toNat_append_byte]
  omega

/-- Settles O4: each value is a chain of its bytes, the highest first, which little endian sends last. -/
theorem argumentFieldsSpellTheirBytes : Obligations.ArgumentFieldsSpellTheirBytes := by
  refine ⟨fun b0 b1 => ⟨?le16, ?be16⟩, fun b0 b1 b2 b3 => ⟨?le32, ?be32⟩⟩
  case le16 => exact (toNat_append_byte b1 b0).trans (Nat.add_comm _ _)
  case be16 => exact toNat_append_byte b0 b1
  case le32 =>
    refine (toNat_append_bytes b3 b2 b1 b0).trans ?_
    omega
  case be32 => exact toNat_append_bytes b0 b1 b2 b3

end Sys2Proof
end

section
/-! PROOFS. The commands of the header bytes: which code has which command (spec/30_encoding.md R76, R77), which byte is
in which class (R82), and the commands of words written out (spec/95_test_vectors.md E3, V-HD). -/

namespace Sys2Proof

open Machine

/-! ### MULTI_CODE and SIZE -/

section
variable {p : Params}

/-- R76: `MULTI_CODE⁻¹` is the inverse of an injective `MULTI_CODE`. -/
theorem commandOf_eq_some_iff (hp : p.codesOk = true) {code : BitVec 5} {c : MultiCmd} :
    p.commandOf code = some c ↔ p.codeOf c = code :=
  ⟨codeOf_of_commandOf, fun h => h ▸ commandOf_codeOf hp c⟩

/-- R76: a code that no command has is undefined. -/
theorem commandOf_eq_none {code : BitVec 5} (h : ∀ c, p.codeOf c ≠ code) : p.commandOf code = none :=
  Option.eq_none_iff_forall_ne_some.mpr fun c hc => h c (codeOf_of_commandOf hc)

/-- R77: the code of a command has the command's frame size. -/
theorem size_of_codeOf (hp : p.codesOk = true) (c : MultiCmd) :
    (p.commandOf (p.codeOf c)).map MultiCmd.size = some c.size := by
  rw [commandOf_codeOf hp, Option.map_some]

end

theorem device_codesOk : Config.device.codesOk = true := Params.wf_codesOk device_wf

/-- R77: the sizes of the codes of the default table, in the source's order. -/
theorem device_sizes :
    (MultiCmd.all.map Config.device.codeOf).map (fun code => (Config.device.commandOf code).map MultiCmd.size)
      = MultiCmd.all.map fun c => some c.size := by
  rw [List.map_map]
  exact List.map_congr_left fun c _ => size_of_codeOf device_codesOk c

/-- Settles O6: `MULTI_CODE⁻¹` undoes `MULTI_CODE`, that of the default table too. -/
theorem multiFrameSizes : Obligations.MultiFrameSizes := by
  refine ⟨fun p hp => ?sizes, fun p code h => ?undefined, ?default⟩
  case sizes =>
    have hsize := size_of_codeOf hp
    exact ⟨hsize _, hsize _, hsize _, hsize _, hsize _, hsize _, hsize _, hsize _⟩
  case undefined => rw [commandOf_eq_none h, Option.map_none]
  case default =>
    have hsizes := device_sizes
    rw [device_codes] at hsizes
    exact hsizes

/-! ### Classes of header bytes -/

/-- R82: the class of a Multi header is its code's, whatever its channel field. -/
theorem commandOf_multiCommand_iff {p : Params} (hp : p.codesOk = true) (ch : BitVec 2) (code : BitVec 5)
    (c : MultiCmd) : p.commandOf (multiCommand (encMultiHeader ch code)) = some c ↔ p.codeOf c = code := by
  rw [multiCommand_encMultiHeader, commandOf_eq_some_iff hp]

/-- R75, R82: the Single command of each value of the command field. -/
theorem decodeSingle_encSingle (v : BitVec 4) :
    decodeSingle (encSingle v 0) = .start v ∧ decodeSingle (encSingle v 1) = .stop v ∧
    decodeSingle (encSingle v 2) = .reset v ∧ decodeSingle (encSingle v 3) = .swap v ∧
    decodeSingle (encSingle v 4) = .invalid4 v ∧ decodeSingle (encSingle v 5) = .invalid5 v ∧
    decodeSingle (encSingle v 6) = .invalid6 v ∧ decodeSingle (encSingle v 7) = .ident v := by
  simp [decodeSingle]

/-! ### Counts of header bytes -/

/-- A predicate of the remainder by `m` holds `k` times as often below `k * m` as below `m`. -/
theorem countP_range_mul (f : Nat → Bool) (k m : Nat) :
    (List.range (k * m)).countP (fun n => f (n % m)) = k * (List.range m).countP f := by
  induction k with
  | zero => rw [Nat.zero_mul, Nat.zero_mul, List.range_zero, List.countP_nil]
  | succ k ih =>
    have hlast : (List.range m).countP ((fun n => f (n % m)) ∘ (k * m + ·)) = (List.range m).countP f := by
      refine List.countP_congr fun n hn => ?_
      rw [Function.comp_apply, Nat.mul_add_mod_self_right, Nat.mod_eq_of_lt (List.mem_range.mp hn)]
    rw [Nat.succ_mul, List.range_add, List.countP_append, List.countP_map, ih, hlast, Nat.succ_mul]

theorem kindOf_ofNat_of_lt {n : Nat} (h : n < 128) : kindOf (.ofNat 8 n) = .multi := by
  refine kindOf_of_clear ?_
  rw [BitVec.getLsbD_ofNat, Nat.testBit_lt_two_pow (i := 7) h, Bool.and_false]

theorem kindOf_ofNat_add {n : Nat} (h : n < 128) : kindOf (.ofNat 8 (128 + n)) = .single := by
  refine kindOf_of_set ?_
  rw [BitVec.getLsbD_ofNat, Nat.testBit_two_pow_add_eq n 7, Nat.testBit_lt_two_pow (i := 7) h]
  rfl

theorem multiCommand_ofNat (n : Nat) : multiCommand (.ofNat 8 n) = .ofNat 5 (n % 32) := by
  apply BitVec.eq_of_toNat_eq
  simp [multiCommand, BitVec.extractLsb'_toNat]

/-- R131: the Multi headers are the lower 128 bytes, the Single headers the upper 128. -/
theorem countP_bytes (f : Kind → Nat → Bool) :
    ((List.range 256).countP fun n => f (kindOf (.ofNat 8 n)) n) =
      (List.range 128).countP (f .multi) + (List.range 128).countP fun n => f .single (128 + n) := by
  have hlow : ((List.range 128).countP fun n => f (kindOf (.ofNat 8 n)) n) = (List.range 128).countP (f .multi) := by
    refine List.countP_congr fun n hn => ?_
    rw [kindOf_ofNat_of_lt (List.mem_range.mp hn)]
  have hhigh : ((List.range 128).countP fun n => f (kindOf (.ofNat 8 (128 + n))) (128 + n)) =
      (List.range 128).countP fun n => f .single (128 + n) := by
    refine List.countP_congr fun n hn => ?_
    rw [kindOf_ofNat_add (List.mem_range.mp hn)]
  rw [List.range_add (n := 128) (m := 128), List.countP_append, List.countP_map, hlow]
  exact congrArg _ hhigh

/-- R82: each value of the command field is in 16 Single headers, one for each value of the channel field. -/
theorem countP_single (f : Nat → Bool) :
    ((List.range 256).countP fun n => kindOf (.ofNat 8 n) == .single && f (n % 8)) = 16 * (List.range 8).countP f := by
  calc ((List.range 256).countP fun n => kindOf (.ofNat 8 n) == .single && f (n % 8))
      = (List.range 128).countP (fun _ => false) + (List.range 128).countP (fun n => f ((128 + n) % 8)) :=
        countP_bytes fun k n => k == .single && f (n % 8)
    _ = (List.range (16 * 8)).countP fun n => f (n % 8) := by
        simp only [List.countP_false, Function.const_apply, Nat.zero_add, Nat.mul_add_mod 8 16]
    _ = 16 * (List.range 8).countP f := countP_range_mul f 16 8

/-- R82: each value of the command field is in four Multi headers, one for each value of the channel field. -/
theorem countP_multi (f : BitVec 5 → Bool) :
    ((List.range 256).countP fun n => kindOf (.ofNat 8 n) == .multi && f (multiCommand (.ofNat 8 n)))
      = 4 * (List.range 32).countP fun code => f (.ofNat 5 code) := by
  calc ((List.range 256).countP fun n => kindOf (.ofNat 8 n) == .multi && f (multiCommand (.ofNat 8 n)))
      = (List.range 128).countP (fun n => f (multiCommand (.ofNat 8 n))) + (List.range 128).countP (fun _ => false) :=
        countP_bytes fun k n => k == .multi && f (multiCommand (.ofNat 8 n))
    _ = (List.range (4 * 32)).countP fun n => f (.ofNat 5 (n % 32)) := by
        simp only [List.countP_false, Function.const_apply, Nat.add_zero, multiCommand_ofNat]
    _ = 4 * (List.range 32).countP fun code => f (.ofNat 5 code) := countP_range_mul (fun code => f (.ofNat 5 code)) 4 32

/-- Settles O7: the class is the command field's, so each count is that of the command fields times that of the channel
fields. -/
theorem headerClasses : Obligations.HeaderClasses := by
  refine ⟨decodeSingle_encSingle, fun p ch code c hp => commandOf_multiCommand_iff hp ch code c, ?validSingle,
    ?invalidSingle, ?validMulti, ?undefinedMulti⟩
  case validSingle => exact (countP_single fun cmd => decide (cmd ∈ [0, 1, 2, 3, 7])).trans (by decide)
  case invalidSingle => exact (countP_single fun cmd => decide (cmd ∈ [4, 5, 6])).trans (by decide)
  case validMulti => exact (countP_multi fun code => (Config.device.commandOf code).isSome).trans (by decide)
  case undefinedMulti => exact (countP_multi fun code => (Config.device.commandOf code).isNone).trans (by decide)

/-! ### Words -/

/-- R86: a table word that begins with the frame of a command decodes to the command. -/
theorem decodeTableWord_of_encode {nbits w : Nat} {i : Instr} (hw : i.wf Config.device = true)
    (h : encode Config.device i <+: tableBytes nbits w) : decodeTableWord nbits w = some i := by
  obtain ⟨rest, h⟩ := h
  rw [decodeTableWord, ← h, decode_encode device_codesOk hw]

/-- Settles O11: each word begins with the frame of its command under the default codes. -/
theorem writtenOutWordsDecode : Obligations.WrittenOutWordsDecode := by
  and_intros
  all_goals exact decodeTableWord_of_encode (by decide) (by decide)

end Sys2Proof
end

section
/-! PROOFS. Where a frame ends is told by its header (spec/30_encoding.md R85). -/

namespace Sys2Proof

section
variable {p : Params}

/-- R162: the argument decoder takes the arguments of its command when they are all there, whatever they are. -/
theorem decodeArgs_of_size_le {e : Endian} {c : MultiCmd} {ch : BitVec 2} {args : List Byte}
    (h : c.size ≤ args.length + 1) : ∃ i, decodeArgs e c ch args = .ok (i, args.drop (c.size - 1)) := by
  obtain ⟨i, rest, hd, hargs, hlen, -⟩ | ⟨-, hlt⟩ := decodeArgs_cases e c ch args
  · refine ⟨i, ?_⟩
    rw [hd, ← hlen, Nat.add_sub_cancel, hargs, List.drop_left]
  · omega

/-- R106: with an argument byte missing the frame is unfinished. -/
theorem decodeArgs_of_lt_size {e : Endian} {c : MultiCmd} {ch : BitVec 2} {args : List Byte}
    (h : args.length + 1 < c.size) : decodeArgs e c ch args = .error (.unfinished c.size) := by
  obtain ⟨i, rest, -, hargs, hlen, -⟩ | ⟨hd, -⟩ := decodeArgs_cases e c ch args
  · rw [hargs, List.length_append] at h
    omega
  · exact hd

/-- R85, R105: a header byte is either the whole of its frame, or it gives the bytes after it to the argument decoder of
a command of its frame's length. -/
theorem header_cases (p : Params) (h : Byte) :
    (frameLength p h = 1 ∧ ∃ i, ∀ args, decode p (h :: args) = .ok (i, args)) ∨
    ∃ c, frameLength p h = c.size ∧ ∀ args, decode p (h :: args) = decodeArgs p.argEndian c (multiChannel h) args := by
  cases hk : kindOf h with
  | single => exact .inl ⟨by simp only [frameLength, hk], _, decode_of_single hk⟩
  | multi =>
    cases hc : p.commandOf (multiCommand h) with
    | none => exact .inl ⟨by simp only [frameLength, hk, hc], _, decode_of_undefined hk hc⟩
    | some c => exact .inr ⟨c, by simp only [frameLength, hk, hc], decode_of_command hk hc⟩

/-- R85: with the bytes its header asks for a frame decodes, and the bytes after it are left. -/
theorem decode_of_frameLength_le {h : Byte} {args : List Byte} (hl : frameLength p h ≤ args.length + 1) :
    ∃ i, decode p (h :: args) = .ok (i, args.drop (frameLength p h - 1)) := by
  obtain ⟨hlen, i, hd⟩ | ⟨c, hlen, hd⟩ := header_cases p h
  · exact ⟨i, by rw [hd, hlen, Nat.sub_self, List.drop_zero]⟩
  · rw [hlen] at hl ⊢
    rw [hd]
    exact decodeArgs_of_size_le hl

/-- R85, R106: with fewer bytes than its header asks for a frame is unfinished. -/
theorem decode_of_lt_frameLength {h : Byte} {args : List Byte} (hl : args.length + 1 < frameLength p h) :
    decode p (h :: args) = .error (.unfinished (frameLength p h)) := by
  obtain ⟨hlen, -⟩ | ⟨c, hlen, hd⟩ := header_cases p h
  · omega
  · rw [hlen] at hl ⊢
    rw [hd]
    exact decodeArgs_of_lt_size hl

end

/-- Settles O8: the two cases of the header, each with enough bytes and with too few. -/
theorem frameLengthFromTheHeaderAlone : Obligations.FrameLengthFromTheHeaderAlone := by
  refine fun p h args => ⟨fun hl => ?_, decode_of_lt_frameLength⟩
  obtain ⟨i, hd⟩ := decode_of_frameLength_le hl
  exact ⟨i, _, hd, rfl⟩

end Sys2Proof
end

section
/-! PROOFS. A Multi frame in progress: what the steps before its last byte show, and what the last one runs
(spec/40_classifier_assembler.md R103, R107, spec/20_memory.md R60). -/

namespace Sys2Proof.Machine

open Sys2Proof

section
variable {i : Instr} {s : State} {hold : Bool} {queue later : List StepInput}

/-- R106: argument bytes that do not complete the frame are collected, and no event is reported. -/
theorem arguments_collected {got args : List Byte} {need : Nat} (hlen : got.length + args.length < need) :
    RunsTo args.length (midFrame got need hold (byteTokens args hold ++ queue) s) []
      (midFrame (got ++ args) need hold queue s) := by
  induction args generalizing got with
  | nil =>
    rw [List.append_nil]
    exact .refl _
  | cons b args ih =>
    rw [List.length_cons] at hlen
    have hpart : (got ++ [b]).length ≠ need := by
      rw [List.length_append, List.length_singleton]
      omega
    have hf := fetch_argument (s := midFrame got need hold (byteTokens (b :: args) hold ++ queue) s) rfl rfl hpart
    have hlen' : (got ++ [b]).length + args.length < need := by
      rw [List.length_append, List.length_singleton]
      omega
    rw [List.append_cons]
    exact .cons (step_settled hf) (ih hlen')

/-- R104, R107: after some but not all bytes of a frame sent from IDLE, those bytes are in the assembler, and nothing
else shows. -/
theorem frame_in_progress {frame : List Byte} {k : Nat} (hp : s.asm.phase = .idle)
    (hd : decode s.cfg frame = .ok (i, [])) (hi : s.input = byteTokens frame hold ++ later) (hpos : 0 < k)
    (hlt : k < frame.length) :
    ∃ need, RunsTo k s [] (midFrame (frame.take k) need hold (byteTokens (frame.drop k) hold ++ later) s) := by
  obtain ⟨j, rfl⟩ := Nat.exists_eq_add_one.mpr hpos
  cases frame with
  | nil => cases hd
  | cons h args =>
    rw [List.length_cons] at hlt
    obtain ⟨-, rfl⟩ | ⟨-, -, rfl⟩ | ⟨c, hk, hc, hsize⟩ := frame_cases hd
    · exact absurd hlt (by simp)
    · exact absurd hlt (by simp)
    · have hlen : [h].length + (args.take j).length < c.size := by
        rw [List.length_singleton, List.length_take]
        omega
      have hargs : byteTokens args hold ++ later
          = byteTokens (args.take j) hold ++ (byteTokens (args.drop j) hold ++ later) := by
        rw [← List.append_assoc, byteTokens, byteTokens, byteTokens, ← List.map_append, List.take_append_drop]
      have hrun := arguments_collected (s := s) (hold := hold) (queue := byteTokens (args.drop j) hold ++ later) hlen
      rw [← hargs, List.length_take, Nat.min_eq_left (by omega)] at hrun
      exact ⟨c.size, .cons (step_settled (fetch_multi hi hp hk hc)) hrun⟩

end

/-- Settles O34: the frame of a command decodes to it, so the steps before its last byte only collect and the last one
dispatches. -/
theorem frameRunsAtItsLastByte : Obligations.FrameRunsAtItsLastByte := by
  rintro s i hold later ⟨hcfg, -, -⟩ hp hw hi
  rw [frameTokens_eq] at hi
  have hd : decode s.cfg (encode s.cfg i) = .ok (i, []) := by
    simpa only [List.append_nil] using decode_encode (Params.wf_codesOk hcfg) hw []
  refine ⟨fun k hpos hlt => ?before, ?last⟩
  case before =>
    obtain ⟨need, hrun, -⟩ := frame_in_progress hp hd hi hpos hlt
    exact ⟨_, hrun, rfl, rfl, rfl, rfl⟩
  case last =>
    obtain ⟨t, hx, -⟩ := exec_effect i (frameState (encode s.cfg i) hold later s)
    obtain ⟨hrun, -⟩ := frame_runs hp hd hi hx
    exact hrun.trans hx.symm

end Sys2Proof.Machine
end

section
/-! PROOFS. What a step takes, reports and leaves, read off the cases of a step (spec/40_classifier_assembler.md R101,
R103, R107, spec/70_reset_and_hazards.md R240). -/

namespace Sys2Proof.Machine

open Sys2Proof

/-- R103, R105, log entry 14: the command of a complete frame leaves the assembler idle and the frame's result, or gives
the result of an undefined header. -/
theorem readyState_exec_asm {frame : List Byte} {i : Instr} {x : StepInput} {rest : List StepInput} {s t : State}
    (h : exec i (readyState frame x rest s) = .next t) :
    (t.asm = Assembler.idle ∧ t.result = some (.complete frame)) ∨ t.result = some .errorUnknownCommand := by
  obtain ⟨hasm, hres⟩ | ⟨-, hres⟩ := effect_asm (effect_of_exec h)
  · exact .inl ⟨hasm, hres⟩
  · exact .inr hres

/-- Settles O27: a step begins on the oldest token, and neither the assembler nor a command takes another. -/
theorem tokensAreTakenInOrder : Obligations.TokensAreTakenInOrder := by
  intro s t x rest hi h
  obtain ⟨hnil, -⟩ | ⟨y, rest', hi', hcase⟩ := step_cases h
  · rw [hi] at hnil
    cases hnil
  · rw [hi] at hi'
    cases hi'
    obtain ⟨a, r, -, rfl⟩ | ⟨hd, n, rfl⟩ | ⟨frame, i, -, hx⟩ := hcase
    · exact ⟨rfl, rfl⟩
    · exact ⟨rfl, rfl⟩
    · obtain ⟨-, hinput, hhold, -⟩ := effect_keeps (effect_of_exec hx)
      exact ⟨hinput, hhold⟩

/-- Settles O28: `Incomplete` is the result of a step that runs no command. -/
theorem partialFramesShowNothing : Obligations.PartialFramesShowNothing := by
  intro s t h hres
  obtain ⟨-, rfl⟩ | ⟨x, rest, -, ⟨a, r, -, rfl⟩ | ⟨hd, n, rfl⟩ | ⟨frame, i, -, hx⟩⟩ := step_cases h
  · exact ⟨rfl, rfl⟩
  · exact ⟨rfl, rfl⟩
  · cases hres
  · obtain ⟨-, hres'⟩ | hres' := readyState_exec_asm hx
    · cases hres.symm.trans hres'
    · cases hres.symm.trans hres'

/-- Settles O29: `Complete` is the result of a step that runs a command, which reports its event and, with this result,
is no undefined header. -/
theorem idleAfterEveryDispatch : Obligations.IdleAfterEveryDispatch := by
  intro s t frame h hres
  obtain ⟨-, rfl⟩ | ⟨x, rest, -, ⟨a, r, hr, rfl⟩ | ⟨hd, n, rfl⟩ | ⟨frame', i, -, hx⟩⟩ := step_cases h
  · cases hres
  · cases hres
    obtain hr | hr := hr <;> cases hr
  · cases hres
  · obtain ⟨e, he, -⟩ := effect_event (effect_of_exec hx)
    obtain ⟨hasm, -⟩ | hres' := readyState_exec_asm hx
    · exact ⟨hasm, e, he⟩
    · cases hres.symm.trans hres'

end Sys2Proof.Machine
end

section
/-! PROOFS. Tokens offered behind those a step takes change nothing of the step (spec/40_classifier_assembler.md
R107). -/

namespace Sys2Proof.Machine

open Sys2Proof

/-! ### The token half of a step with more tokens offered -/

/-- The same answer of the token half, with more tokens offered. -/
def Fetched.withTokens (more : List StepInput) : Fetched → Fetched
  | .settled s => .settled (deliver more s)
  | .run i s => .run i (deliver more s)
  | .broken => .broken

section
variable (more : List StepInput) (s : State)

theorem dispatchFrame_deliver (frame : List Byte) :
    dispatchFrame frame (deliver more s) = (dispatchFrame frame s).withTokens more := by
  unfold dispatchFrame
  rw [deliver_cfg]
  split <;> rfl

theorem takeHeader_deliver (b : Byte) : takeHeader b (deliver more s) = (takeHeader b s).withTokens more := by
  unfold takeHeader
  rw [deliver_cfg]
  split
  · exact dispatchFrame_deliver more s [b]
  · split
    · rfl
    · exact dispatchFrame_deliver more s [b]

theorem takeArgument_deliver (b : Byte) : takeArgument b (deliver more s) = (takeArgument b s).withTokens more := by
  unfold takeArgument
  rw [deliver_asm]
  dsimp only
  split
  · exact dispatchFrame_deliver more s (s.asm.buf ++ [b])
  · rfl

theorem takeCandidate_deliver (b : Byte) : takeCandidate b (deliver more s) = (takeCandidate b s).withTokens more := by
  unfold takeCandidate
  split
  · exact dispatchFrame_deliver more s [b]
  · rfl

theorem takeByte_deliver (b : Byte) : takeByte b (deliver more s) = (takeByte b s).withTokens more := by
  unfold takeByte
  rw [deliver_asm]
  split
  · exact takeHeader_deliver more s b
  · exact takeArgument_deliver more s b
  · exact takeCandidate_deliver more s b

theorem takeAbandon_deliver : takeAbandon (deliver more s) = (takeAbandon s).withTokens more := by
  unfold takeAbandon
  rw [deliver_asm]
  split
  · split <;> rfl
  · rfl
  · rfl

end

section
variable {s t : State}

/-- R101, R107: where there is a token, the token half reads no further one. -/
theorem fetch_deliver (more : List StepInput) (h : s.input ≠ []) :
    fetch (deliver more s) = (fetch s).withTokens more := by
  obtain ⟨⟨tok, hold⟩, rest, hi⟩ := List.exists_cons_of_ne_nil h
  have hi' : (deliver more s).input = ⟨tok, hold⟩ :: (rest ++ more) := by rw [deliver_input, hi, List.cons_append]
  cases tok with
  | byte b =>
    rw [fetch_byte hi, fetch_byte hi']
    exact takeByte_deliver more (beginStep ⟨.byte b, hold⟩ rest s) b
  | abandon =>
    rw [fetch_abandon hi, fetch_abandon hi']
    exact takeAbandon_deliver more (beginStep ⟨.abandon, hold⟩ rest s)

/-! ### Steps and runs with more tokens offered -/

/-- No operation of a command reads or writes the queue. -/
theorem Paired.eq_deliver {more : List StepInput} {undef : Bool} {s' u' : State}
    (h : Paired s (deliver more s) undef s' u') : u' = deliver more s' := by
  cases h <;> rfl

/-- R107: a command does the same with more tokens offered. -/
theorem exec_deliver {i : Instr} (more : List StepInput) (h : exec i s = .next t) :
    exec i (deliver more s) = .next (deliver more t) := by
  obtain ⟨s', u', hs, hu, hp⟩ := exec_paired i (s := s) (deliver_cfg more s) (deliver_holdConst more s)
  rw [hs] at h
  cases h
  rw [hu, hp.eq_deliver]

/-- R107: a step that has a token does the same with more tokens offered. -/
theorem step_deliver (more : List StepInput) (hne : s.input ≠ []) (h : step s = .next t) :
    step (deliver more s) = .next (deliver more t) := by
  have hmore := fetch_deliver more hne
  cases hf : fetch s with
  | settled u =>
    rw [step_settled hf] at h
    cases h
    rw [hf] at hmore
    exact step_settled hmore
  | run i u =>
    rw [step_run hf] at h
    rw [hf] at hmore
    exact (step_run hmore).trans (exec_deliver more h)
  | broken =>
    rw [step_broken hf] at h
    cases h

/-- R107: a run that has a token for every step does the same with more tokens offered. -/
theorem RunsTo.delivered {k : Nat} {es : List Event} (more : List StepInput) (hk : k ≤ s.input.length)
    (h : RunsTo k s es t) : RunsTo k (deliver more s) es (deliver more t) := by
  induction k generalizing s es with
  | zero =>
    obtain ⟨hrun, hev⟩ := h
    cases hrun
    subst hev
    exact .refl _
  | succ k ih =>
    obtain ⟨u, fs, hstep, hrest, rfl⟩ := h.uncons
    have hne : s.input ≠ [] := List.ne_nil_of_length_pos (Nat.zero_lt_of_lt hk)
    obtain ⟨x, rest, hi⟩ := List.exists_cons_of_ne_nil hne
    obtain ⟨hu, -⟩ := tokensAreTakenInOrder s u x rest hi hstep
    rw [hi, List.length_cons] at hk
    exact .cons (t := deliver more u) (step_deliver more hne hstep) (ih (hu ▸ Nat.le_of_succ_le_succ hk) hrest)

end

/-- Settles O33: each step of the run has a token, so none reads the tokens delivered later. -/
theorem deliveryTimeHasNoEffect : Obligations.DeliveryTimeHasNoEffect := by
  intro k s t more hk hrun
  have h : RunsTo k s (eventsDuring k s) t := ⟨hrun, rfl⟩
  exact (h.delivered more hk).1

end Sys2Proof.Machine
end

section
/-! PROOFS. The step, case by case of the token and of `asm.phase`, each as one equation of the whole next state
(spec/40_classifier_assembler.md R102 to R112), and the commands of undefined headers (R105, R110). -/

namespace Sys2Proof.Machine

open Sys2Proof

/-! ### Undefined headers -/

/-- R110: the registers after a resynchronization, written out. -/
theorem resyncTarget_eq (p : ResyncPolicy) :
    resyncTarget p = if p = .restart then ⟨.idle, [], 0, none⟩ else ⟨.hunt, [], 0, none⟩ := by
  cases p with
  | restart => rfl
  | huntSingle => rfl

/-- R105, R110: what the discard of an undefined header leaves. -/
theorem discardHeader_eq (h : Byte) (s : State) :
    discardHeader h s =
      { s with
        asm := if s.cfg.resync = .restart then ⟨.idle, [], 0, none⟩ else ⟨.hunt, [], 0, none⟩
        result := some .errorUnknownCommand
        event := some (.diag (.unknownCommand h)) } := by
  rw [← resyncTarget_eq]
  rfl

/-- Settles O45: both rows discard their header. -/
theorem undefinedMultiCommandsComplete : Obligations.UndefinedMultiCommandsComplete :=
  fun s _ _ => ⟨congrArg _ (discardHeader_eq _ s), congrArg _ (discardHeader_eq _ s)⟩

/-- R105: the command of an undefined header discards it. -/
theorem exec_of_isUndefined {i : Instr} (h : isUndefined i = true) (p : Params) (s : State) :
    exec i s = .next (discardHeader (header p i) s) := by
  cases i with
  | undefinedLow | undefinedHigh => rfl
  | _ => cases h

theorem isUndefined_decodeUndefined (h : Byte) : isUndefined (decodeUndefined h) = true := by
  unfold decodeUndefined
  dsimp only
  split <;> rfl

theorem isUndefined_decodeSingle (h : Byte) : isUndefined (decodeSingle h) = false := by
  unfold decodeSingle
  dsimp only
  split <;> rfl

/-- R103, R147: a command that is no undefined header leaves the assembler and the result. -/
theorem exec_keeps_asm_result {i : Instr} {s t : State} (hu : isUndefined i = false) (h : exec i s = .next t) :
    t.asm = s.asm ∧ t.result = s.result := by
  obtain ⟨s', u', hs, -, hp⟩ := exec_paired i (s := s) (u := s) rfl rfl
  rw [hs] at h
  cases h
  rw [hu] at hp
  cases hp <;> exact ⟨rfl, rfl⟩

/-! ### A byte completes a frame -/

section
variable {s : State} {b : Byte} {hold : Bool} {rest : List StepInput}

/-- R102, R105: a byte in IDLE that is a frame by itself is dispatched. -/
theorem fetch_whole_frame {i : Instr} (hi : s.input = ⟨.byte b, hold⟩ :: rest) (hp : s.asm.phase = .idle)
    (hd : decode s.cfg [b] = .ok (i, [])) : fetch s = dispatchFrame [b] (beginStep ⟨.byte b, hold⟩ rest s) := by
  obtain ⟨hk, -⟩ | ⟨hk, hc, -⟩ | ⟨c, -, -, hsize⟩ := frame_cases hd
  · exact fetch_single hi hp hk
  · exact fetch_undefined hi hp hk hc
  · have := size_ge_two c
    rw [List.length_nil] at hsize
    omega

/-- The assembler of an idle state stays as it is when a frame is complete. -/
theorem readyState_of_idle {frame : List Byte} {x : StepInput} (h : s.asm = Assembler.idle) :
    readyState frame x rest s =
      { s with input := rest, holdConst := x.holdConst, result := some (.complete frame), event := none } := by
  rw [readyState, ← h]
  rfl

end

/-- Settles O18: in each of the three phases the byte completes the frame, and a frame that decodes is dispatched. -/
theorem stepRunsTheDecodedInstruction : Obligations.StepRunsTheDecodedInstruction := by
  intro s b hold rest i frame hi hd hphase
  obtain ⟨hp, rfl⟩ | ⟨hp, hb, rfl⟩ | ⟨hp, rfl, hl⟩ := hphase
  · exact step_dispatch (fetch_whole_frame hi hp hd) hd
  · exact step_dispatch (fetch_candidate hi hp (kindOf_of_set hb)) hd
  · exact step_dispatch (fetch_last_argument hi hp hl) hd

/-- Settles O19: a Single header is a frame by itself, and its command leaves the assembler and the result. -/
theorem singleHeaderCompletesAtOnce : Obligations.SingleHeaderCompletesAtOnce := by
  intro s b hold rest hi hasm hb
  have hp : s.asm.phase = .idle := by rw [hasm]
  have hk := kindOf_of_set hb
  obtain ⟨t, hx, -⟩ := exec_effect (decodeSingle b) (readyState [b] ⟨.byte b, hold⟩ rest s)
  obtain ⟨hasm', hres⟩ := exec_keeps_asm_result (isUndefined_decodeSingle b) hx
  have hstep := step_dispatch (fetch_single hi hp hk) (decode_of_single hk [])
  refine ⟨t, hstep.trans hx, ?_, hasm', hres⟩
  rw [readyState_of_idle hasm] at hx
  exact hx

/-- Settles O21: an undefined header is a frame by itself, whose command discards it. -/
theorem undefinedMultiHeaderResynchronizes : Obligations.UndefinedMultiHeaderResynchronizes := by
  intro s b hold rest hi hp hb hundef
  have hk := kindOf_of_clear hb
  have hc : s.cfg.commandOf (multiCommand b) = none := commandOf_eq_none hundef
  obtain ⟨hheader, -, -⟩ := header_decodeUndefined hk hc
  rw [step_dispatch (fetch_undefined hi hp hk hc) (decode_of_undefined hk hc []),
    exec_of_isUndefined (isUndefined_decodeUndefined b) s.cfg, hheader, discardHeader_eq]
  rfl

/-! ### A byte that completes no frame -/

/-- Settles O20: the next state is the one of the token half. -/
theorem definedMultiHeaderStartsAFrame : Obligations.DefinedMultiHeaderStartsAFrame :=
  fun _ _ _ _ _ hi hp hb hc => step_settled (fetch_multi hi hp (kindOf_of_clear hb) hc)

/-- Settles O22: the argument byte is collected or, as the last one of a frame, completes it. -/
theorem argumentBytesAreCollected : Obligations.ArgumentBytesAreCollected :=
  fun _ _ _ _ hi hp => ⟨fun hl => step_settled (fetch_argument hi hp hl),
    fun _ hl hd => step_dispatch (fetch_last_argument hi hp hl) hd⟩

/-- Settles O23: a Single header is the same frame in HUNT and in IDLE, and a frame's command runs in the same state
whatever the assembler held. -/
theorem huntEndsAtASingleHeader : Obligations.HuntEndsAtASingleHeader := by
  refine fun s b hold rest hi hp => ⟨fun hb => ?multi, fun hb => ?single⟩
  case multi => exact step_settled (fetch_hunted hi hp (kindOf_of_clear hb))
  case single =>
    have hk := kindOf_of_set hb
    have hd := decode_of_single (p := s.cfg) hk []
    have hidle := step_dispatch (fetch_single (s := { s with asm := Assembler.idle }) hi rfl hk) hd
    exact (step_dispatch (fetch_candidate hi hp hk) hd).trans hidle.symm

/-! ### An abandon signal, and no token -/

section
variable {s : State} {hold : Bool} {rest : List StepInput}

/-- R111: an abandon signal discards the frame in progress. -/
theorem fetch_abandon_collect {h : Byte} {args : List Byte} (hi : s.input = ⟨.abandon, hold⟩ :: rest)
    (hp : s.asm.phase = .collect) (hbuf : s.asm.buf = h :: args) :
    fetch s = .settled (report .abandoned
      (resync (raise (.stalledFrame h (h :: args).length) (beginStep ⟨.abandon, hold⟩ rest s)))) := by
  simp only [fetch_abandon hi, takeAbandon, beginStep_asm, hp, hbuf]

/-- R112: an abandon signal with no frame in progress has no effect. -/
theorem fetch_abandon_noOp (hi : s.input = ⟨.abandon, hold⟩ :: rest) (hp : s.asm.phase = .idle ∨ s.asm.phase = .hunt) :
    fetch s = .settled (report .noOp (beginStep ⟨.abandon, hold⟩ rest s)) := by
  obtain hp | hp := hp
  · simp only [fetch_abandon hi, takeAbandon, beginStep_asm, hp]
  · simp only [fetch_abandon hi, takeAbandon, beginStep_asm, hp]

end

/-- Settles O24: the next state is the one of the token half. -/
theorem abandonDiscardsAPartialFrame : Obligations.AbandonDiscardsAPartialFrame := by
  intro s hold rest h args hi hp hbuf
  rw [step_settled (fetch_abandon_collect hi hp hbuf), ← resyncTarget_eq, hbuf]
  rfl

/-- Settles O25: the next state is the one of the token half. -/
theorem abandonWithNothingInProgress : Obligations.AbandonWithNothingInProgress :=
  fun _ _ _ hi hp => step_settled (fetch_abandon_noOp hi hp)

/-- Settles O26: with no token the step only clears the outputs. -/
theorem noTokenNoChange : Obligations.NoTokenNoChange := fun _ => step_none

end Sys2Proof.Machine
end

section
/-! PROOFS. Decoding read backwards: the bytes of a decoded command are its encoding (spec/30_encoding.md R86, R173),
and the bytes after its frame have no part in it (R85). -/

namespace Sys2Proof

section
variable {p : Params} {i : Instr}

/-- R173: a command that was decoded encodes to the bytes it was decoded from, and is well formed. -/
theorem encode_append_of_decode {bytes rest : List Byte} (hd : decode p bytes = .ok (i, rest)) :
    encode p i ++ rest = bytes ∧ i.wf p = true := by
  cases bytes with
  | nil => cases hd
  | cons h args =>
    cases hk : kindOf h with
    | single =>
      rw [decode_of_single hk] at hd
      cases hd
      obtain ⟨hh, ha, hw⟩ := header_decodeSingle (p := p) hk
      exact ⟨by rw [encode, hh, ha, List.cons_append, List.nil_append], hw⟩
    | multi =>
      cases hc : p.commandOf (multiCommand h) with
      | none =>
        rw [decode_of_undefined hk hc] at hd
        cases hd
        obtain ⟨hh, ha, hw⟩ := header_decodeUndefined hk hc
        exact ⟨by rw [encode, hh, ha, List.cons_append, List.nil_append], hw⟩
      | some c =>
        rw [decode_of_command hk hc] at hd
        obtain ⟨j, r, hj, hargs, -, hh, hw⟩ | ⟨herr, -⟩ := decodeArgs_cases p.argEndian c (multiChannel h) args
        · rw [hj] at hd
          cases hd
          have hheader : header p i = h := by
            rw [hh, Params.multiHeader, codeOf_of_commandOf hc, multi_fields_spell_header hk]
          exact ⟨by rw [encode, hheader, List.cons_append, ← hargs], hw p⟩
        · rw [herr] at hd
          cases hd

/-- R162: bytes after the arguments of a command are not its own. -/
theorem decodeArgs_append {e : Endian} {c : MultiCmd} {ch : BitVec 2} {args rest : List Byte}
    (hd : decodeArgs e c ch args = .ok (i, rest)) (more : List Byte) :
    decodeArgs e c ch (args ++ more) = .ok (i, rest ++ more) := by
  unfold decodeArgs at hd
  split at hd
  case h_9 => cases hd
  all_goals
    cases hd
    rfl

/-- R85: bytes after a frame have no part in it. -/
theorem decode_append {bytes rest : List Byte} (hd : decode p bytes = .ok (i, rest)) (more : List Byte) :
    decode p (bytes ++ more) = .ok (i, rest ++ more) := by
  cases bytes with
  | nil => cases hd
  | cons h args =>
    obtain ⟨-, j, hj⟩ | ⟨c, -, hj⟩ := header_cases p h
    · rw [hj] at hd
      cases hd
      exact hj _
    · rw [hj] at hd
      exact (hj _).trans (decodeArgs_append hd more)

theorem frameLength_pos (p : Params) (h : Byte) : 0 < frameLength p h := by
  obtain ⟨hlen, -⟩ | ⟨c, hlen, -⟩ := header_cases p h
  · rw [hlen]
    exact Nat.one_pos
  · rw [hlen]
    exact Nat.lt_of_lt_of_le Nat.two_pos (size_ge_two c)

/-- R85: where a command decodes, the bytes its header asks for decode to it by themselves. -/
theorem decode_take_frameLength {h : Byte} {args rest : List Byte} (hd : decode p (h :: args) = .ok (i, rest)) :
    decode p ((h :: args).take (frameLength p h)) = .ok (i, []) := by
  obtain ⟨n, hn⟩ := Nat.exists_eq_add_one.mpr (frameLength_pos p h)
  have henough : frameLength p h ≤ args.length + 1 := by
    by_contra hlt
    rw [decode_of_lt_frameLength (Nat.lt_of_not_le hlt)] at hd
    cases hd
  have hle : frameLength p h ≤ (args.take n).length + 1 := by
    rw [List.length_take]
    omega
  obtain ⟨j, hj⟩ := decode_of_frameLength_le hle
  rw [hn, Nat.add_sub_cancel, List.drop_take_self] at hj
  -- The bytes cut off give the same command back, so `j` is `i`.
  have hwhole := decode_append hj (args.drop n)
  rw [List.cons_append, List.take_append_drop, hd] at hwhole
  cases hwhole
  rw [hn, List.take_succ_cons, hj]

/-- R86: the bytes of a frame that decodes as a whole are the encoding of its command. -/
theorem encode_of_decode {frame : List Byte} (hd : decode p frame = .ok (i, [])) : encode p i = frame := by
  obtain ⟨henc, -⟩ := encode_append_of_decode hd
  rwa [List.append_nil] at henc

end

end Sys2Proof
end

section
/-! PROOFS. The interface of log entry 9: a placed frame is what the next step runs. -/

namespace Sys2Proof.Machine

open Sys2Proof

/-- A frame is placed by its last byte and the bytes before it. -/
theorem placeFrame_append (held : List Byte) (b : Byte) (s : State) :
    placeFrame (held ++ [b]) s =
      { s with asm := heldFrame (held ++ [b]), input := ⟨.byte b, s.holdConst⟩ :: s.input } := by
  simp only [placeFrame, List.getLast?_concat]

/-- Log entry 9: a frame of one byte leaves the assembler idle. -/
theorem heldFrame_singleton (b : Byte) : heldFrame [b] = Assembler.idle := rfl

/-- Log entry 9: all but the last byte of a longer frame are in the assembler, as in a frame in progress (R22). -/
theorem heldFrame_append {held : List Byte} (h : held ≠ []) (b : Byte) :
    heldFrame (held ++ [b]) = Assembler.collecting held (held ++ [b]).length := by
  have hlen : ¬ (held ++ [b]).length ≤ 1 := by
    have := List.length_pos_iff.mpr h
    rw [List.length_append, List.length_singleton]
    omega
  rw [heldFrame, if_neg hlen, List.dropLast_concat]

/-- R102, R105, R106: the step after a frame is placed runs the command of the frame. -/
theorem step_placeFrame {s : State} {frame : List Byte} {i : Instr} (hd : decode s.cfg frame = .ok (i, [])) :
    step (placeFrame frame s) = exec i
      { s with asm := ⟨.idle, [], 0, none⟩, result := some (.complete frame), event := none } := by
  obtain rfl | ⟨held, b, rfl⟩ := frame.eq_nil_or_concat'
  · cases hd
  · rw [placeFrame_append]
    refine stepRunsTheDecodedInstruction _ b s.holdConst s.input i (held ++ [b]) rfl hd ?_
    by_cases h : held = []
    · subst h
      exact .inl ⟨by rw [List.nil_append, heldFrame_singleton]; rfl, rfl⟩
    · rw [heldFrame_append h]
      exact .inr (.inr ⟨rfl, rfl, rfl⟩)

/-- R85: the frame of a table word that decodes is a frame by itself. -/
theorem decode_tableFrame {p : Params} {nbits w : Nat} {i : Instr} {rest : List Byte}
    (hd : decode p (tableBytes nbits w) = .ok (i, rest)) : decode p (tableFrame p nbits w) = .ok (i, []) :=
  decode_take_frameLength hd

/-- Settles O36: the frame of the word decodes to the command, so its bytes are the command's encoding. -/
theorem placedFrameRunsNext : Obligations.PlacedFrameRunsNext := by
  intro s nbits w i rest hd
  have hframe := decode_tableFrame hd
  rw [encode_of_decode hframe]
  exact step_placeFrame hframe

end Sys2Proof.Machine
end

section
/-! PROOFS. The header decoder (spec/41_header_decoder.md R131 to R133): a field cut out of a byte is the byte shifted
and masked. -/

namespace Sys2Proof

/-- The `n` bits of a word from bit `start` on are the word shifted right by `start`, under a mask of `n` ones. -/
theorem setWidth_extractLsb'_eq_and {w : Nat} (b : BitVec w) (start n : Nat) :
    (b.extractLsb' start n).setWidth w = (b >>> start) &&& (BitVec.allOnes n).setWidth w := by
  ext i hi
  rw [BitVec.getElem_setWidth, BitVec.getLsbD_extractLsb', BitVec.getElem_and, BitVec.getElem_ushiftRight,
    BitVec.getElem_setWidth, BitVec.getLsbD_allOnes, Bool.and_comm]

/-- R132: the formula of the channel field of a Single header. -/
theorem singleChannel_eq_and (b : Byte) : (singleChannel b).setWidth 8 = (b >>> 3) &&& 0xF#8 :=
  setWidth_extractLsb'_eq_and b 3 4

/-- R132: the formula of the command field of a Single header. -/
theorem singleCommand_eq_and (b : Byte) : (singleCommand b).setWidth 8 = b &&& 0x7#8 := by
  calc (singleCommand b).setWidth 8 = (b >>> 0) &&& 0x7#8 := setWidth_extractLsb'_eq_and b 0 3
    _ = b &&& 0x7#8 := by rw [BitVec.ushiftRight_zero]

/-- R133: the formula of the channel field of a Multi header. -/
theorem multiChannel_eq_and (b : Byte) : (multiChannel b).setWidth 8 = (b >>> 5) &&& 0x3#8 :=
  setWidth_extractLsb'_eq_and b 5 2

/-- R133: the formula of the command field of a Multi header. -/
theorem multiCommand_eq_and (b : Byte) : (multiCommand b).setWidth 8 = b &&& 0x1F#8 := by
  calc (multiCommand b).setWidth 8 = (b >>> 0) &&& 0x1F#8 := setWidth_extractLsb'_eq_and b 0 5
    _ = b &&& 0x1F#8 := by rw [BitVec.ushiftRight_zero]

/-- Settles O2: the kind is decided by bit 7 alone, and each field of the two layouts is a shifted and masked byte. -/
theorem headerFieldsFollowTheFormulas : Obligations.HeaderFieldsFollowTheFormulas := by
  refine ⟨fun b => ?kind, fun b _ => ?single, fun b _ => ?multi, ?examples⟩
  case kind => rfl
  case single => exact ⟨singleChannel_eq_and b, singleCommand_eq_and b⟩
  case multi => exact ⟨multiChannel_eq_and b, multiCommand_eq_and b⟩
  case examples => decide

end Sys2Proof
end

section
/-! PROOFS. The Single-byte commands (spec/42_single_byte_commands.md R141 to R149): the exchange of two records and the
loop of `RESET` on the registry, and from them the commands. -/

namespace Sys2Proof.Machine

open Sys2Proof

/-- R33, R103: a command that is no undefined header changes at most the registry and the event output. -/
theorem sameButRegistryAndEvent_of_exec {i : Instr} {s t : State} (hu : isUndefined i = false)
    (h : exec i s = .next t) : SameButRegistryAndEvent s t := by
  obtain ⟨hcfg, hinput, hhold, -⟩ := effect_keeps (effect_of_exec h)
  obtain ⟨hasm, hres⟩ := exec_keeps_asm_result hu h
  exact ⟨hcfg, hasm, hinput, hhold, hres⟩

/-! ### The exchange of two records -/

section
variable {a c : Nat} {cs : List ChannelState} {ra rc : ChannelState}

/-- The first channel of the pair gets the record of the second, also where they are one channel. -/
theorem swapRecords_get_left (ha : cs[a]? = some ra) (hc : cs[c]? = some rc) :
    (swapRecords a c cs)[a]? = some rc := by
  rw [swapRecords_get ha hc]
  by_cases hac : a = c
  · rw [if_pos hac, ← ha, hac, hc]
  · rw [if_neg hac, if_pos rfl]

/-- The second channel of the pair gets the record of the first. -/
theorem swapRecords_get_right (ha : cs[a]? = some ra) (hc : cs[c]? = some rc) :
    (swapRecords a c cs)[c]? = some ra := by
  rw [swapRecords_get ha hc, if_pos rfl]

/-- A registry that lacks a record of the pair is left as it is (log entry 17). -/
theorem swapRecords_of_none (h : cs[a]? = none ∨ cs[c]? = none) : swapRecords a c cs = cs := by
  unfold swapRecords
  split
  · next ha hc => simp [ha, hc] at h
  · rfl

/-- R145: no other channel changes, whether or not the pair has its records. -/
theorem swapRecords_get_other {n : Nat} (hna : n ≠ a) (hnc : n ≠ c) : (swapRecords a c cs)[n]? = cs[n]? := by
  cases ha : cs[a]? with
  | none => rw [swapRecords_of_none (.inl ha)]
  | some ra =>
    cases hc : cs[c]? with
    | none => rw [swapRecords_of_none (.inr hc)]
    | some rc => rw [swapRecords_get ha hc, if_neg hnc, if_neg hna]

/-- R145: the exchange undoes itself. -/
theorem swapRecords_swapRecords (a c : Nat) (cs : List ChannelState) :
    swapRecords a c (swapRecords a c cs) = cs := by
  cases ha : cs[a]? with
  | none => rw [swapRecords_of_none (.inl ha), swapRecords_of_none (.inl ha)]
  | some ra =>
    cases hc : cs[c]? with
    | none => rw [swapRecords_of_none (.inr hc), swapRecords_of_none (.inr hc)]
    | some rc =>
      have hleft := swapRecords_get_left ha hc
      have hright := swapRecords_get_right ha hc
      apply List.ext_getElem?
      intro n
      by_cases hnc : n = c
      · rw [hnc, swapRecords_get_right hleft hright, hc]
      · by_cases hna : n = a
        · rw [hna, swapRecords_get_left hleft hright, ha]
        · rw [swapRecords_get_other hna hnc, swapRecords_get_other hna hnc]

/-- R145: the exchange of a channel with itself leaves the registry. -/
theorem swapRecords_self (a : Nat) (cs : List ChannelState) : swapRecords a a cs = cs := by
  cases ha : cs[a]? with
  | none => exact swapRecords_of_none (.inl ha)
  | some ra =>
    obtain ⟨hlt, rfl⟩ := List.getElem?_eq_some_iff.mp ha
    rw [swapRecords_eq ha ha, List.set_set, List.set_getElem_self hlt]

end

/-! ### SWAP -/

/-- R145: SWAP with a value that selects a pair. -/
theorem exec_swap_of_pair {s : State} {v : BitVec 4} {a c : Fin 4} (h : swapPair s.cfg.swapMap v = some (a, c)) :
    exec (.swap v) s = .next (emit (.srcSwap a.val c.val) (exchange a.val c.val s)) := by
  simp only [exec, execSwap, h]

/-- R145: SWAP with a value that selects no pair. -/
theorem exec_swap_of_no_pair {s : State} {v : BitVec 4} (h : swapPair s.cfg.swapMap v = none) :
    exec (.swap v) s = .next (raise (.invalidChannel (encSingle v 3) v.toNat) s) := by
  simp only [exec, execSwap, h]

/-- Settles O41: the records after the exchange, channel by channel. -/
theorem swapExchangesTwoRecords : Obligations.SwapExchangesTwoRecords := by
  refine fun s v => ⟨rfl, fun a c ra rc hpair ha hc => ?pair, fun hpair => ?noPair⟩
  case pair =>
    have hx := exec_swap_of_pair hpair
    exact ⟨_, hx, rfl, sameButRegistryAndEvent_of_exec rfl hx, swapRecords_length _ _ _, swapRecords_get_left ha hc,
      swapRecords_get_right ha hc, fun _ hna hnc => swapRecords_get_other hna hnc⟩
  case noPair => exact exec_swap_of_no_pair hpair

/-- Settles O42: the second SWAP reads the same `SWAP_MAP`, so it undoes the exchange of the first. -/
theorem swapTwiceRestores : Obligations.SwapTwiceRestores := by
  intro s v a c hpair
  refine ⟨_, _, exec_swap_of_pair hpair, exec_swap_of_pair hpair, swapRecords_swapRecords a.val c.val s.cs, ?_⟩
  rintro rfl
  exact ⟨swapRecords_self a.val s.cs, rfl⟩

/-! ### RESET -/

/-- R143: RESET in every state, whatever the channel field. -/
theorem exec_reset (v : BitVec 4) (s : State) :
    exec (.reset v) s = .next (emit .devResetAllSources (restorePresets s)) := rfl

/-- Settles O39: the loop gives each record the settings of its own channel and source. -/
theorem resetRestoresThePresets : Obligations.ResetRestoresThePresets := by
  intro s v
  have hx := exec_reset v s
  obtain ⟨-, -, -, hlength⟩ := effect_keeps (effect_of_exec hx)
  refine ⟨rfl, _, hx, rfl, sameButRegistryAndEvent_of_exec rfl hx, hlength, fun ch r hr => ?_⟩
  rw [emit_cs, restorePresets_get, hr]
  rfl

/-- Settings written a second time change nothing more. -/
theorem withSettings_withSettings (p : SourceSettings) (r : ChannelState) :
    withSettings p (withSettings p r) = withSettings p r := rfl

/-- R143: the loop leaves `src` and so writes the same settings a second time. -/
theorem restorePresets_restorePresets_cs (s : State) :
    (restorePresets (restorePresets s)).cs = (restorePresets s).cs := by
  apply List.ext_getElem?
  intro n
  rw [restorePresets_get, restorePresets_get, Option.map_map]
  exact congrArg (Option.map · _) (funext fun r => withSettings_withSettings _ r)

/-- Settles O40: the events do not touch the registry, and the loop is idempotent. -/
theorem resetTwiceIsResetOnce : Obligations.ResetTwiceIsResetOnce :=
  fun s v w => ⟨_, _, exec_reset v s, exec_reset w _, restorePresets_restorePresets_cs s⟩

/-! ### The commands that only report -/

/-- R29: a step clears the event of the step before and reads nothing of it. -/
theorem step_of_event (e : Option Event) (s : State) : step { s with event := e } = step s := by
  have hfetch : fetch { s with event := e } = fetch s := by
    unfold fetch
    cases s.input with
    | nil => rfl
    | cons => rfl
  simp only [step, hfetch]

/-- Settles O37: the command is its event, and reads neither the channel field nor the state. -/
theorem startEmitsDevStart : Obligations.StartEmitsDevStart := fun _ _ => ⟨rfl, rfl⟩

/-- Settles O38: `DevStop` is an event, which gates nothing. -/
theorem stopEmitsDevStop : Obligations.StopEmitsDevStop := fun s _ => ⟨rfl, rfl, step_of_event _ s⟩

/-- Settles O43: the command is its event, and reads neither the channel field nor the state. -/
theorem identEmitsDevIdentity : Obligations.IdentEmitsDevIdentity := fun _ _ => ⟨rfl, rfl⟩

/-- Settles O44: each of the three codes raises its own header. -/
theorem invalidSingleIsReported : Obligations.InvalidSingleIsReported :=
  fun _ _ => ⟨⟨rfl, rfl⟩, ⟨rfl, rfl⟩, ⟨rfl, rfl⟩⟩

end Sys2Proof.Machine
end

section
/-! PROOFS. The arguments of the Multi commands (spec/43_multi_byte_commands.md R162), and the round trips between commands
and their frames (R173). -/

namespace Sys2Proof

/-- Settles O9: the header selects the command, and the argument bytes spell the operands. -/
theorem decodeUndoesEncode : Obligations.DecodeUndoesEncode :=
  fun _ _ rest hp hw => decode_encode hp hw rest

/-- Settles O10: the fields decoded from a header spell it, and the operands have the bytes they were read from. -/
theorem encodeUndoesDecode : Obligations.EncodeUndoesDecode :=
  fun _ _ _ _ hd => encode_append_of_decode hd

/-- Settles O5: the header selects the row of the schema, which is the argument decoder's. -/
theorem argumentsFollowTheSchema : Obligations.ArgumentsFollowTheSchema := by
  intro p hp ch a b c d rest
  have hdecode := decode_multiHeader hp
  exact ⟨hdecode _ _ _, hdecode _ _ _, hdecode _ _ _, hdecode _ _ _, hdecode _ _ _, hdecode _ _ _, hdecode _ _ _,
    hdecode _ _ _, fun cmd args hlt => (hdecode cmd ch args).trans (decodeArgs_of_lt_size hlt)⟩

end Sys2Proof
end

section
/-! PROOFS. The domains of `time_factor` and `voltage_offset` (spec/43_multi_byte_commands.md R168, R169), and the first
against the fields of a binary32 word (log entry 15). -/

namespace Sys2Proof.Machine

open Sys2Proof

/-! ### Ranges of words -/

/-- R168: the range test, on words. -/
theorem factorInDomain_iff {f : Word32} :
    factorInDomain f = true ↔ 0x00000001#32 ≤ f ∧ f ≤ 0x7F7FFFFF#32 := by
  rw [factorInDomain, Bool.and_eq_true, decide_eq_true_iff, decide_eq_true_iff]
  rfl

/-- R168: the words the range test turns away. -/
theorem factorInDomain_eq_false_iff {f : Word32} :
    factorInDomain f = false ↔ f = 0#32 ∨ 0x7F7FFFFF#32 < f := by
  rw [← Bool.not_eq_true, factorInDomain_iff]
  bv_omega

/-- R169: the range test, on values. -/
theorem offsetInDomain_iff {v : Word16} : offsetInDomain v = true ↔ 1#16 ≤ v := decide_eq_true_iff

/-- R169: the one value the range test turns away. -/
theorem offsetInDomain_eq_false_iff {v : Word16} : offsetInDomain v = false ↔ v = 0#16 := by
  rw [← Bool.not_eq_true, offsetInDomain_iff]
  bv_omega

/-! ### Fields of a binary32 word -/

/-- Bit 31 of a word is clear in the lower half of the words. -/
theorem sign_clear_iff (f : Word32) : f.getLsbD 31 = false ↔ f.toNat < 2 ^ 31 := by
  have hlt := f.isLt
  rw [BitVec.getLsbD, Nat.testBit_eq_decide_div_mod_eq, decide_eq_false_iff_not]
  omega

/-- A field of a word has the value `k` where the bits of the word from `start` on spell `k`. -/
theorem extractLsb'_eq_iff {w : Nat} (f : BitVec w) (start n : Nat) (k : BitVec n) :
    f.extractLsb' start n = k ↔ f.toNat / 2 ^ start % 2 ^ n = k.toNat := by
  rw [← BitVec.toNat_inj, BitVec.extractLsb'_toNat, Nat.shiftRight_eq_div_pow]

/-- Settles O51: with the sign clear the words are ordered by exponent and then fraction, so the positive finite values
are those above zero and below the exponent 0xFF. -/
theorem acceptedFactorsArePositiveFinite : Obligations.AcceptedFactorsArePositiveFinite := by
  intro f
  have hlt := f.isLt
  have hrange : factorInDomain f = true ↔ 1 ≤ f.toNat ∧ f.toNat ≤ 0x7F7FFFFF := factorInDomain_iff
  have hinf : f.extractLsb' 23 8 = 0xFF#8 ↔ f.toNat / 2 ^ 23 % 2 ^ 8 = 255 := extractLsb'_eq_iff f 23 8 _
  have hexp : f.extractLsb' 23 8 = 0 ↔ f.toNat / 2 ^ 23 % 2 ^ 8 = 0 := extractLsb'_eq_iff f 23 8 _
  have hfrac : f.extractLsb' 0 23 = 0 ↔ f.toNat / 2 ^ 0 % 2 ^ 23 = 0 := extractLsb'_eq_iff f 0 23 _
  rw [hrange, sign_clear_iff, Ne, hinf, hexp, hfrac]
  omega

end Sys2Proof.Machine
end

section
/-! PROOFS. The Multi-byte commands (spec/43_multi_byte_commands.md R160 to R172): the three outcomes of a
channel check and a condition, what each leaves, and from them the commands. -/

namespace Sys2Proof.Machine

open Sys2Proof

/-! ### The three outcomes of a Multi command -/

/-- What a Multi command with this header makes of `s` on channel `ch` (R161, R172). -/
inductive MultiOutcome (s : State) (ch : BitVec 2) (header : Byte) : State → Prop where
  /-- The mutation is applied, with an event that is no diagnostic. -/
  | accepted (m : ChannelState → ChannelState) (e : Event) (hlt : ch.toNat < s.cfg.nch) (he : ∀ d, e ≠ .diag d) :
      MultiOutcome s ch header (mutateAndEmit ch.toNat m e s)
  /-- The channel is not of the set. -/
  | outside (hge : s.cfg.nch ≤ ch.toNat) : MultiOutcome s ch header (raise (.invalidChannel header ch.toNat) s)
  /-- The mutation is turned away. -/
  | rejected (why : RejectReason) (hlt : ch.toNat < s.cfg.nch) :
      MultiOutcome s ch header (raise (.rejectedMutation header ch.toNat why) s)

section
variable {s : State} {ch : BitVec 2}

/-- R172: the condition decides between the mutation and its rejection. -/
theorem mutateIf_outcome (ok : Bool) (header : Byte) (why : RejectReason) (m : ChannelState → ChannelState) {e : Event}
    (he : ∀ d, e ≠ .diag d) (hlt : ch.toNat < s.cfg.nch) :
    MultiOutcome s ch header (mutateIf ok header ch.toNat why m e s) := by
  cases ok with
  | true => exact .accepted m e hlt he
  | false => exact .rejected why hlt

/-- R161: the channel check comes first. -/
theorem onChannel_outcome (c : MultiCmd) {act : Byte → Nat → State → State}
    (h : ch.toNat < s.cfg.nch →
      MultiOutcome s ch (s.cfg.multiHeader c ch) (act (s.cfg.multiHeader c ch) ch.toNat s)) :
    MultiOutcome s ch (s.cfg.multiHeader c ch) (onChannel c ch act s) := by
  obtain hlt | hge := Nat.lt_or_ge ch.toNat s.cfg.nch
  · rw [onChannel_of_lt hlt]
    exact h hlt
  · rw [onChannel_of_ge hge]
    exact .outside hge

/-- R160, R172: every Multi command on channel `ch` has one of the three outcomes. -/
theorem exec_multi_outcome (s : State) (ch : BitVec 2) (a b : Byte) (v : Word32) (x : Word16) :
    ∀ i ∈ [Instr.csl ch a, .cso ch a, .csn ch a b, .ctp ch v, .tf ch v, .voff ch x, .son ch v, .soff ch v],
      ∃ t, exec i s = .next t ∧ MultiOutcome s ch (header s.cfg i) t := by
  simp only [List.forall_mem_cons]
  refine ⟨?csl, ?cso, ?csn, ?ctp, ?tf, ?voff, ?son, ?soff, nofun⟩
  case csl | cso | csn | son | soff =>
    exact ⟨_, rfl, onChannel_outcome _ fun hlt => .accepted _ _ hlt nofun⟩
  case ctp | tf | voff =>
    exact ⟨_, rfl, onChannel_outcome _ fun hlt => mutateIf_outcome _ _ _ _ nofun hlt⟩

/-- R51, R172: no outcome touches anything but the registry and the event, nor the record of another channel. -/
theorem MultiOutcome.frame {header : Byte} {t : State} (h : MultiOutcome s ch header t) :
    SameButRegistryAndEvent s t ∧ t.cs.length = s.cs.length ∧ ∀ n : Nat, n ≠ ch.toNat → t.cs[n]? = s.cs[n]? := by
  cases h with
  | accepted m e => exact ⟨⟨rfl, rfl, rfl, rfl, rfl⟩, List.length_modify .., fun _ hn => apply_other m hn⟩
  | outside | rejected => exact ⟨⟨rfl, rfl, rfl, rfl, rfl⟩, rfl, fun _ _ => rfl⟩

end

/-- Settles O56: each outcome has its own event, and only an accepted mutation writes. -/
theorem multiCommandsHaveThreeOutcomes : Obligations.MultiCommandsHaveThreeOutcomes := by
  intro s t ch a b v x i hi h
  obtain ⟨u, hu, hout⟩ := exec_multi_outcome s ch a b v x i hi
  rw [hu] at h
  cases h
  obtain ⟨hsame, hlength, hothers⟩ := hout.frame
  refine ⟨hsame, hlength, hothers, ?_⟩
  cases hout with
  | accepted m e hlt he => exact .inl ⟨hlt, e, rfl, he⟩
  | outside hge => exact .inr (.inl ⟨hge, rfl, rfl⟩)
  | rejected why hlt => exact .inr (.inr ⟨hlt, rfl, why, rfl⟩)

/-- Settles O55: the two other outcomes are those of a channel of the set. -/
theorem channelOutsideTheSetIsReported : Obligations.ChannelOutsideTheSetIsReported := by
  intro s ch a b v x hge i hi
  obtain ⟨t, ht, hout⟩ := exec_multi_outcome s ch a b v x i hi
  cases hout with
  | accepted m e hlt | rejected why hlt => exact absurd hlt (Nat.not_lt.mpr hge)
  | outside => exact ht

/-! ### A command with a channel check, as equations of the whole next state -/

section
variable (i : Instr) (s : State) {c : MultiCmd} {ch : BitVec 2} {ok : Bool} {why : RejectReason}
  {m : ChannelState → ChannelState} {e : Nat → Event}

/-- R161: a command on a channel outside the set, with the header written out. -/
theorem exec_of_outside {act : Byte → Nat → State → State} (hx : exec i s = .next (onChannel c ch act s))
    (hge : s.cfg.nch ≤ ch.toNat) :
    exec i s = .next
      { s with event := some (.diag (.invalidChannel (0#1 ++ ch ++ s.cfg.codeOf c) ch.toNat)) } :=
  hx.trans (congrArg _ (onChannel_of_ge hge c act))

/-- R161, R172: a command whose mutation has no condition. -/
theorem exec_of_mutateAndEmit (hx : exec i s = .next (onChannel c ch (fun _ n => mutateAndEmit n m (e n)) s)) :
    (∀ r, ch.toNat < s.cfg.nch → s.cs[ch.toNat]? = some r → exec i s = .next
      { s with cs := s.cs.set ch.toNat (m r), event := some (e ch.toNat) }) ∧
    (s.cfg.nch ≤ ch.toNat → exec i s = .next
      { s with event := some (.diag (.invalidChannel (0#1 ++ ch ++ s.cfg.codeOf c) ch.toNat)) }) := by
  refine ⟨fun r hlt hr => ?_, exec_of_outside i s hx⟩
  rw [hx, onChannel_of_lt hlt, mutateAndEmit_at m _ hr]

/-- R161, R172, R204: a command whose mutation has the condition `ok`. -/
theorem exec_of_mutateIf
    (hx : exec i s = .next (onChannel c ch (fun header n => mutateIf ok header n why m (e n)) s)) :
    (∀ r, ch.toNat < s.cfg.nch → s.cs[ch.toNat]? = some r → ok = true → exec i s = .next
      { s with cs := s.cs.set ch.toNat (m r), event := some (e ch.toNat) }) ∧
    (ch.toNat < s.cfg.nch → ok = false → exec i s = .next
      { s with event := some (.diag (.rejectedMutation (0#1 ++ ch ++ s.cfg.codeOf c) ch.toNat why)) }) ∧
    (s.cfg.nch ≤ ch.toNat → exec i s = .next
      { s with event := some (.diag (.invalidChannel (0#1 ++ ch ++ s.cfg.codeOf c) ch.toNat)) }) := by
  refine ⟨fun r hlt hr hok => ?accepted, fun hlt hok => ?rejected, exec_of_outside i s hx⟩
  case accepted => rw [hx, onChannel_of_lt hlt, hok, mutateIf_true, mutateAndEmit_at m _ hr]
  case rejected =>
    rw [hx, onChannel_of_lt hlt, hok, mutateIf_false]
    rfl

end

/-! ### The commands that store every value -/

/-- Settles O46: the mutation has no condition. -/
theorem changeSourceLSetsLoopback : Obligations.ChangeSourceLSetsLoopback :=
  fun s ch src => ⟨rfl, (exec_of_mutateAndEmit (.csl ch src) s rfl :)⟩

/-- Settles O47: the mutation has no condition. -/
theorem changeSourceOSetsOneShot : Obligations.ChangeSourceOSetsOneShot :=
  fun s ch src => ⟨rfl, (exec_of_mutateAndEmit (.cso ch src) s rfl :)⟩

/-- Settles O48: the mutation has no condition, and writes the three fields at once. -/
theorem changeSourceNSetsNShot : Obligations.ChangeSourceNSetsNShot :=
  fun s ch src shot => ⟨rfl, (exec_of_mutateAndEmit (.csn ch src shot) s rfl :)⟩

/-- Settles O53: the mutation has no condition. -/
theorem squareOnTimeIsStored : Obligations.SquareOnTimeIsStored :=
  fun s ch v => ⟨rfl, (exec_of_mutateAndEmit (.son ch v) s rfl :)⟩

/-- Settles O54: the mutation has no condition. -/
theorem squareOffTimeIsStored : Obligations.SquareOffTimeIsStored :=
  fun s ch v => ⟨rfl, (exec_of_mutateAndEmit (.soff ch v) s rfl :)⟩

/-! ### The commands with a condition -/

/-- Settles O49: the condition is the Source's answer of the step. -/
theorem timePeriodNeedsAConstantHoldTime : Obligations.TimePeriodNeedsAConstantHoldTime :=
  fun s ch v => ⟨rfl, (exec_of_mutateIf (.ctp ch v) s rfl :)⟩

/-- Settles O50: the condition is the range test of the factor. -/
theorem timeFactorStoresPositiveFinite : Obligations.TimeFactorStoresPositiveFinite := by
  intro s ch f
  obtain ⟨haccepted, hrejected, houtside⟩ := exec_of_mutateIf (.tf ch f) s rfl
  exact ⟨rfl, fun r hlt hr hlow hhigh => haccepted r hlt hr (factorInDomain_iff.mpr ⟨hlow, hhigh⟩),
    fun hlt hf => hrejected hlt (factorInDomain_eq_false_iff.mpr hf), houtside⟩

/-- Settles O52: the condition is the range test of the offset, which only 0 fails. -/
theorem voltageOffsetStoresNonZero : Obligations.VoltageOffsetStoresNonZero := by
  intro s ch v
  obtain ⟨haccepted, hrejected, houtside⟩ := exec_of_mutateIf (.voff ch v) s rfl
  exact ⟨rfl, fun r hlt hr hv => haccepted r hlt hr (offsetInDomain_iff.mpr hv),
    fun hlt hv => hrejected hlt (offsetInDomain_eq_false_iff.mpr hv), houtside⟩

end Sys2Proof.Machine
end

section
/-! PROOFS. Errors (spec/60_exceptions.md): no legal state stops (R205), a diagnostic leaves the registry (R209), a byte
offered together with the abandon signal is left for the next step (R208), and the codes of the diagnostics (R200). -/

namespace Sys2Proof.Machine

open Sys2Proof

/-! ### The token half of a step in a legal state is never broken -/

/-- R85, R106: the last argument byte of a legal frame in progress makes a frame that decodes as a whole. -/
theorem Assembler.Wf.decode_complete {p : Params} {a : Assembler} (hw : a.Wf p) (hp : a.phase = .collect) {b : Byte}
    (hl : (a.buf ++ [b]).length = a.need) : ∃ i, decode p (a.buf ++ [b]) = .ok (i, []) := by
  obtain ⟨-, -, hcollect⟩ := hw
  obtain ⟨h, args, c, hbuf, hk, hc, hneed, -⟩ := hcollect hp
  have hsize : (args ++ [b]).length + 1 = c.size := by rw [← hneed, ← hl, hbuf]; rfl
  obtain ⟨i, hd⟩ := decodeArgs_of_size_le (e := p.argEndian) (ch := multiChannel h) hsize.ge
  refine ⟨i, ?_⟩
  rw [hbuf, List.cons_append, decode_of_command hk hc, hd, ← hsize, Nat.add_sub_cancel, List.drop_length]

theorem dispatchFrame_ne_broken {s : State} {frame : List Byte} {i : Instr} (hd : decode s.cfg frame = .ok (i, [])) :
    dispatchFrame frame s ≠ .broken := by
  rw [dispatchFrame_of_decode hd]
  nofun

/-- R102, R104, R105: every byte is a header. -/
theorem takeHeader_ne_broken (b : Byte) (s : State) : takeHeader b s ≠ .broken := by
  unfold takeHeader
  split
  next hk => exact dispatchFrame_ne_broken (decode_of_single hk [])
  next hk =>
    split
    · nofun
    next hc => exact dispatchFrame_ne_broken (decode_of_undefined hk hc [])

/-- R106: an argument byte is collected or completes a frame that decodes. -/
theorem takeArgument_ne_broken (b : Byte) {s : State} (hw : s.asm.Wf s.cfg) (hp : s.asm.phase = .collect) :
    takeArgument b s ≠ .broken := by
  unfold takeArgument
  dsimp only
  split
  next hl =>
    obtain ⟨i, hd⟩ := hw.decode_complete hp hl
    exact dispatchFrame_ne_broken hd
  · nofun

/-- R108, R109: a byte in HUNT is discarded or is a Single header. -/
theorem takeCandidate_ne_broken (b : Byte) (s : State) : takeCandidate b s ≠ .broken := by
  unfold takeCandidate
  split
  next hk => exact dispatchFrame_ne_broken (decode_of_single hk [])
  · nofun

theorem takeByte_ne_broken (b : Byte) {s : State} (hw : s.asm.Wf s.cfg) : takeByte b s ≠ .broken := by
  unfold takeByte
  split
  · exact takeHeader_ne_broken b s
  next hp => exact takeArgument_ne_broken b hw hp
  · exact takeCandidate_ne_broken b s

/-- R111, R22: a frame in progress has a header to report. -/
theorem takeAbandon_ne_broken {s : State} (hw : s.asm.Wf s.cfg) : takeAbandon s ≠ .broken := by
  unfold takeAbandon
  split
  next hp =>
    obtain ⟨-, -, hcollect⟩ := hw
    obtain ⟨h, args, c, hbuf, -⟩ := hcollect hp
    rw [hbuf]
    nofun
  · nofun
  · nofun

/-- R100: the token half of a step gives every token a meaning in every legal state of the assembler. -/
theorem fetch_ne_broken {s : State} (hw : s.asm.Wf s.cfg) : fetch s ≠ .broken := by
  unfold fetch
  split
  · nofun
  · split
    · exact takeByte_ne_broken _ hw
    · exact takeAbandon_ne_broken hw

/-- R205: a legal assembler is all a step needs to give a next state, since every command completes. -/
theorem step_completes {s : State} (hw : s.asm.Wf s.cfg) : ∃ t, step s = .next t := by
  cases hf : fetch s with
  | settled t => exact ⟨t, step_settled hf⟩
  | run i u =>
    obtain ⟨t, hx, -⟩ := exec_effect i u
    exact ⟨t, (step_run hf).trans hx⟩
  | broken => exact absurd hf (fetch_ne_broken hw)

/-- Settles O17: a step from a legal state gives a next state, and every step keeps the invariant. -/
theorem noStepStops : Obligations.NoStepStops := by
  intro s hs
  have ⟨_, hasm, _⟩ := hs
  obtain ⟨t, ht⟩ := step_completes hasm
  exact ⟨t, ht, stepKeepsTheInvariant s t hs ht⟩

/-! ### Diagnostics -/

/-- R51: a command whose event is a diagnostic leaves the registry. -/
theorem exec_diag_keeps_cs {i : Instr} {s t : State} {d : Diag} (hx : exec i s = .next t)
    (hev : t.event = some (.diag d)) : t.cs = s.cs := by
  obtain ⟨e, he, hcase⟩ := effect_event (effect_of_exec hx)
  cases hev.symm.trans he
  obtain hne | hcs := hcase
  · exact absurd rfl (hne d)
  · exact hcs

/-- Settles O30: only a step that runs a command can write the registry, and a command that reports a diagnostic does not. -/
theorem diagnosticsArePrecise : Obligations.DiagnosticsArePrecise := by
  intro s t d h hev
  obtain ⟨-, rfl⟩ | ⟨x, rest, -, ⟨a, r, -, rfl⟩ | ⟨hd, n, rfl⟩ | ⟨frame, i, -, hx⟩⟩ := step_cases h
  · rfl
  · rfl
  · rfl
  · have hcs := exec_diag_keeps_cs hx hev
    exact hcs

/-- Settles O59: the code of each kind. -/
theorem diagnosticCodes : Obligations.DiagnosticCodes := fun _ _ _ _ => ⟨rfl, rfl, rfl, rfl⟩

/-! ### A byte together with the abandon signal -/

/-- R208: with nothing offered before, a byte and the abandon signal together leave the abandon as the oldest token. -/
theorem offer_abandon_byte_input {s : State} (hi : s.input = []) (b : Byte) (hold : Bool) :
    (offer (some b) true hold s).input = [⟨.abandon, hold⟩, ⟨.byte b, hold⟩] := by
  rw [offer, deliver_input, hi]
  rfl

/-- R110: a resynchronization leaves no byte of a frame. -/
theorem resyncTarget_buf (p : ResyncPolicy) : (resyncTarget p).buf = [] := by
  cases p with
  | restart | huntSingle => rfl

/-- R110, R21: the policy says in which phase the next byte is taken. -/
theorem resyncTarget_phase (p : ResyncPolicy) :
    (resyncTarget p).phase = if p = .restart then .idle else .hunt := by
  cases p with
  | restart | huntSingle => rfl

/-- Settles O32: the abandon token is taken first and discards the frame in progress, and the byte is the token left. -/
theorem abandonIsOrderedBeforeTheByte : Obligations.AbandonIsOrderedBeforeTheByte := by
  intro s b hold h args hi hp hbuf
  have hstep := step_settled (fetch_abandon_collect (offer_abandon_byte_input hi b hold) hp hbuf)
  exact ⟨_, hstep, by rw [hbuf]; rfl, rfl, resyncTarget_buf _, resyncTarget_phase _, rfl⟩

end Sys2Proof.Machine
end
